-- ==== Sys2Proof/Word.lean ====
section
/-! DEFINITION. The units of storage the spec names (spec/00_scope.md R4, R6): words, values, bytes, register numbers. -/

namespace Sys2Proof

/-- A word: 16 bits, the unit of memory, of the stack, of an instruction and of the instruction pointer (R4 `WORD_BITS`). -/
abbrev Word := BitVec 16

/-- A value: 15 bits, what a register holds and what an operand resolves to, 0..32767 (R4 `VALUE_BITS`, R11, R12).
That a register never holds more is carried by this type. -/
abbrev Value := BitVec 15

/-- A byte: one unit of input or output (R4 `IO_BITS`). -/
abbrev Byte := BitVec 8

/-- A register number 0..7 (R4 `NREGS`, R11). -/
abbrev RegIx := Fin 8

end Sys2Proof
end

