-- ==== Sys2Proof/Machine/Flags.lean ====
section
/-! DEFINITION. The hardware has no flags, no condition codes and no status register (spec/10_state.md R23): a comparison
writes 1 or 0 into a register, and a conditional jump tests a value for zero. This file holds those two computations. -/

namespace Sys2Proof.Machine

/-- A truth value as `eq` and `gt` write it: 1 or 0 (R23, R90, R91). -/
def truth (c : Bool) : Value := if c then 1 else 0

/-- A value as `jt` and `jf` test it: any non-zero value is true (R95). -/
def nonZero (v : Value) : Bool := v != 0

end Sys2Proof.Machine
end

