-- ==== Sys2Proof/Machine/Alu.lean ====
section
/-! DEFINITION. What the arithmetic-logic unit computes (spec/44_alu.md R106): exact on natural numbers, then reduced
modulo 32768. Everything is unsigned. -/

namespace Sys2Proof.Machine

/-- `(a + b) mod 32768` (R100). -/
def Alu.add (a b : Value) : Value := BitVec.ofNat 15 ((a.toNat + b.toNat) % 32768)

/-- `(a * b) mod 32768`, the product taken exactly (R101). -/
def Alu.mult (a b : Value) : Value := BitVec.ofNat 15 ((a.toNat * b.toNat) % 32768)

/-- `a mod b`, for a divisor that is not 0 (R102). -/
def Alu.mod (a b : Value) : Value := BitVec.ofNat 15 (a.toNat % b.toNat)

/-- Bitwise and (R103). -/
def Alu.and (a b : Value) : Value := a &&& b

/-- Bitwise or (R104). -/
def Alu.or (a b : Value) : Value := a ||| b

/-- `(a xor 0xFFFF) & 0x7FFF`, computed on the 16-bit word (R105). -/
def Alu.not (a : Value) : Value := ((a.setWidth 16 ^^^ 0xFFFF#16) &&& 0x7FFF#16).setWidth 15

/-- 1 if the values are equal, else 0 (R90). -/
def Alu.eq (a b : Value) : Value := truth (a.toNat == b.toNat)

/-- 1 if the first value is greater than the second, as unsigned numbers, else 0 (R91). -/
def Alu.gt (a b : Value) : Value := truth (decide (b.toNat < a.toNat))

end Sys2Proof.Machine
end

