-- ==== Sys2Proof/Config.lean ====
section
/-! DEFINITION. What is fixed for the machine (spec/00_scope.md R4), the defaults of the open parameters of R5, and the one
free value. The open parameters themselves are arguments: `Machine.Params` and the arguments of `Machine.State.boot`; the
default of `OPNUM` is `opcodeTable`. -/

namespace Sys2Proof

/-- Number of memory words, addresses 0..32767 (R4 `MEM_WORDS`). -/
def Config.memWords : Nat := 32768

/-- What a memory word holds at reset when nothing says otherwise: the default of `MEM_FILL` (R5, R28), and what a word that
is not listed reads as. Any other `MEM_FILL` or `M0` is an argument of `Machine.State.boot`. UNVERIFIED: 0 is the spec's own default, decision D8 (log 2); unsafe for a claim about unfilled memory. -/
def Config.memFill : Word := 0

/-- The largest stack depth, or none for a stack without one: the default of `STACK_MAX` (R5, R17). UNVERIFIED: it is the
spec's decision D14 (log 3); unsafe for a finite stack, which `Machine.Params.stackMax` models. -/
def Config.stackMax : Option Nat := none

/-- The byte an endless input source delivers at a position of the input (R5 `INPUT`, "a finite or infinite sequence of
bytes") where no source is given as an argument (`Machine.State.supply`). A free value: it has no body, so nothing can be
proved about which byte it is (log 13). Safe. -/
opaque Config.inputByte : Nat → Byte

end Sys2Proof
end

