-- ==== Sys2Proof/Syntax.lean ====
section
/-! DEFINITION. The instruction set as data (spec/30_encoding.md R50 to R57): operands, opcodes, and `Instr`, one
constructor per row of spec/opcode_table.json. -/

namespace Sys2Proof

/-- An operand word after classification (R52). Every 16-bit word is exactly one of these: 32768 literals, 8 register
references, 32760 invalid words (R59). -/
inductive Operand where
  /-- a word 0..32767, taken at face value -/
  | literal (v : Value)
  /-- a word 32768..32775, naming register `i` -/
  | register (i : RegIx)
  /-- the word `32776 + n`, invalid in every operand position -/
  | invalid (n : Fin 32760)
  deriving DecidableEq, Repr

/-- What an operand position is for (R51): the register written, or a value read. -/
inductive Role where
  | dest
  | value
  deriving DecidableEq, Repr

/-- The 22 operations (R56), in the order of the opcode table; `in_` is the table's `in`. -/
inductive Opcode where
  | halt | set | push | pop | eq | gt | jmp | jt | jf | add | mult | mod | and | or | not | rmem | wmem | call | ret
  | out | in_ | noop
  deriving DecidableEq, Repr

/-- A numbering of the 22 operations, the parameter `OPNUM` (R5, R56): the operation at place `n` has the number `n`. -/
abbrev OpNum := Vector Opcode 22

/-- A decoded instruction: the operation and its operand words, classified (DESIGN CHOICE, log 16, safe: R61 returns them
raw) but not resolved (R50, R51, R61). The letters are the table's: `d` the destination, `a`, `b`, `t` values. An operand of
any class may stand in any place, as it may in memory: what then happens is the instruction's meaning (R62 phase 4). -/
inductive Instr where
  | halt
  | set (d a : Operand)
  | push (a : Operand)
  | pop (d : Operand)
  | eq (d a b : Operand)
  | gt (d a b : Operand)
  | jmp (a : Operand)
  | jt (a t : Operand)
  | jf (a t : Operand)
  | add (d a b : Operand)
  | mult (d a b : Operand)
  | mod (d a b : Operand)
  | and (d a b : Operand)
  | or (d a b : Operand)
  | not (d a : Operand)
  | rmem (d a : Operand)
  | wmem (a b : Operand)
  | call (a : Operand)
  | ret
  | out (a : Operand)
  | in_ (d : Operand)
  | noop
  deriving DecidableEq, Repr

/-- The operation an instruction performs. -/
def Instr.opcode : Instr → Opcode
  | .halt => .halt
  | .set _ _ => .set
  | .push _ => .push
  | .pop _ => .pop
  | .eq _ _ _ => .eq
  | .gt _ _ _ => .gt
  | .jmp _ => .jmp
  | .jt _ _ => .jt
  | .jf _ _ => .jf
  | .add _ _ _ => .add
  | .mult _ _ _ => .mult
  | .mod _ _ _ => .mod
  | .and _ _ _ => .and
  | .or _ _ _ => .or
  | .not _ _ => .not
  | .rmem _ _ => .rmem
  | .wmem _ _ => .wmem
  | .call _ => .call
  | .ret => .ret
  | .out _ => .out
  | .in_ _ => .in_
  | .noop => .noop

/-- The operands in the order of their words, each with its role: the formats N, V, D, DV, VV, DVV of R51. -/
def Instr.operands : Instr → List (Role × Operand)
  | .halt => []
  | .set d a => [(.dest, d), (.value, a)]
  | .push a => [(.value, a)]
  | .pop d => [(.dest, d)]
  | .eq d a b => [(.dest, d), (.value, a), (.value, b)]
  | .gt d a b => [(.dest, d), (.value, a), (.value, b)]
  | .jmp a => [(.value, a)]
  | .jt a t => [(.value, a), (.value, t)]
  | .jf a t => [(.value, a), (.value, t)]
  | .add d a b => [(.dest, d), (.value, a), (.value, b)]
  | .mult d a b => [(.dest, d), (.value, a), (.value, b)]
  | .mod d a b => [(.dest, d), (.value, a), (.value, b)]
  | .and d a b => [(.dest, d), (.value, a), (.value, b)]
  | .or d a b => [(.dest, d), (.value, a), (.value, b)]
  | .not d a => [(.dest, d), (.value, a)]
  | .rmem d a => [(.dest, d), (.value, a)]
  | .wmem a b => [(.value, a), (.value, b)]
  | .call a => [(.value, a)]
  | .ret => []
  | .out a => [(.value, a)]
  | .in_ d => [(.dest, d)]
  | .noop => []

end Sys2Proof
end

