-- ==== Sys2Proof/WellFormed.lean ====
section
/-! DEFINITION. Which instructions have legal operands (spec/30_encoding.md R52 to R54, R59): the others are decoded too,
and abort when executed (R62 phase 4). And which numberings of the operations are legal (R5). -/

namespace Sys2Proof

/-- The numbering is a bijection (R5 `OPNUM`): no operation has two numbers, and so, there being 22 of each, each has one. -/
def OpNum.wf (n : OpNum) : Bool := decide n.toList.Nodup

/-- The operand is a literal or a register reference: its word is at most 32775 (R52). -/
def Operand.valid : Operand → Bool
  | .literal _ => true
  | .register _ => true
  | .invalid _ => false

/-- The operand may stand in a place of this role: "only register references are legal in a destination position" (R59). -/
def Operand.fits : Role → Operand → Bool
  | .value, o => o.valid
  | .dest, .register _ => true
  | .dest, .literal _ => false
  | .dest, .invalid _ => false

/-- Every operand of the instruction is legal where it stands. -/
def Instr.wf (i : Instr) : Bool := i.operands.all fun p => p.2.fits p.1

end Sys2Proof
end

