-- ==== Sys2Proof/Decode.lean ====
section
/-! DEFINITION. The decoder and the encoder (spec/30_encoding.md R50 to R61): opcode numbers, operand counts, classification
of operand words, `decode` on any list of words, `encode`, and the host's view `decodeTableWord`. -/

namespace Sys2Proof

/-- The opcode table in its order, first row 0 and last row 21 (R56): the default of the parameter `OPNUM`. UNVERIFIED: this
numbering is the spec's decision D1 (log 1). -/
def opcodeTable : OpNum :=
  #v[.halt, .set, .push, .pop, .eq, .gt, .jmp, .jt, .jf, .add, .mult,
    .mod, .and, .or, .not, .rmem, .wmem, .call, .ret, .out, .in_, .noop]

/-- The operation an opcode word stands for; none for 22..65535, with no bit of the word ignored (R58). -/
def OpNum.ofWord (n : OpNum) (w : Word) : Option Opcode := n.toList[w.toNat]?

/-- The number of an operation (R56). -/
def OpNum.num (n : OpNum) (op : Opcode) : Word := BitVec.ofNat 16 (n.toList.idxOf op)

/-- How many operand words follow the opcode word (R57). -/
def Opcode.operandCount : Opcode → Nat
  | .halt | .ret | .noop => 0
  | .push | .pop | .jmp | .call | .out | .in_ => 1
  | .set | .jt | .jf | .not | .rmem | .wmem => 2
  | .eq | .gt | .add | .mult | .mod | .and | .or => 3

/-- Length in words: the opcode word and its operand words (R50, R60). -/
def Opcode.length (op : Opcode) : Nat := 1 + op.operandCount

/-- Classification of a raw operand word, the same in every position (R52). -/
def Operand.classify (w : Word) : Operand :=
  if w.toNat ≤ 32767 then .literal (w.setWidth 15)
  else if w.toNat ≤ 32775 then .register (Fin.ofNat 8 (w.toNat - 32768))
  else .invalid (Fin.ofNat 32760 (w.toNat - 32776))

/-- The raw word an operand was classified from (R51, the bit layout of operand words). -/
def Operand.word : Operand → Word
  | .literal v => v.setWidth 16
  | .register i => BitVec.ofNat 16 (32768 + i.val)
  | .invalid n => BitVec.ofNat 16 (32776 + n.val)

/-- The instruction an operation makes of the words after its opcode word; words past its operand count are not looked
at (R50, R51). -/
def assemble (op : Opcode) (w1 w2 w3 : Word) : Instr :=
  match op with
  | .halt => .halt
  | .set => .set (.classify w1) (.classify w2)
  | .push => .push (.classify w1)
  | .pop => .pop (.classify w1)
  | .eq => .eq (.classify w1) (.classify w2) (.classify w3)
  | .gt => .gt (.classify w1) (.classify w2) (.classify w3)
  | .jmp => .jmp (.classify w1)
  | .jt => .jt (.classify w1) (.classify w2)
  | .jf => .jf (.classify w1) (.classify w2)
  | .add => .add (.classify w1) (.classify w2) (.classify w3)
  | .mult => .mult (.classify w1) (.classify w2) (.classify w3)
  | .mod => .mod (.classify w1) (.classify w2) (.classify w3)
  | .and => .and (.classify w1) (.classify w2) (.classify w3)
  | .or => .or (.classify w1) (.classify w2) (.classify w3)
  | .not => .not (.classify w1) (.classify w2)
  | .rmem => .rmem (.classify w1) (.classify w2)
  | .wmem => .wmem (.classify w1) (.classify w2)
  | .call => .call (.classify w1)
  | .ret => .ret
  | .out => .out (.classify w1)
  | .in_ => .in_ (.classify w1)
  | .noop => .noop

/-- Why a list of words begins with no instruction: the decoder's rejections, by name (R61). -/
inductive DecodeError where
  /-- there is no word at all: the opcode fetch is out of range (R62 phase 1) -/
  | noOpcode
  /-- the opcode word has no mapping (R58, R62 phase 2) -/
  | invalidOpcode (w : Word)
  /-- the list ends before operand word `k` (1..3), the first that is missing (R62 phase 3) -/
  | missingOperand (op : Opcode) (k : Fin 4)
  deriving DecidableEq, Repr

/-- The decoder: the instruction at the head of a list of words, which may go on past it (R50, R58, R61, R62 phases 1 to
3: opcode word, then the count, then the operand words from the first), under a numbering of the operations. -/
def decode (n : OpNum) (ws : List Word) : Except DecodeError Instr :=
  match ws with
  | [] => .error .noOpcode
  | w :: ws =>
    match n.ofWord w with
    | none => .error (.invalidOpcode w)
    | some op =>
      if ws.length < op.operandCount then .error (.missingOperand op (Fin.ofNat 4 (ws.length + 1)))
      else .ok (assemble op (ws.getD 0 0) (ws.getD 1 0) (ws.getD 2 0))

/-- The words of an instruction: its number, then its operand words in order (R50, R51). -/
def encode (n : OpNum) (i : Instr) : List Word := n.num i.opcode :: i.operands.map fun p => p.2.word

/-- Two bytes of the program image as a word: the first is bits 7..0, the second bits 15..8 (R36, R46). -/
def wordOfBytes (lo hi : Byte) : Word := hi ++ lo

/-- Bits 7..0 of a word (R36). -/
def lowByte (w : Word) : Byte := w.setWidth 8

/-- Bits 15..8 of a word (R36). -/
def highByte (w : Word) : Byte := (w >>> 8).setWidth 8

/-- The words of a string of bytes, little-endian (R46); a last odd byte makes no word. -/
def wordsOfBytes : List Byte → List Word
  | lo :: hi :: rest => wordOfBytes lo hi :: wordsOfBytes rest
  | [_] => []
  | [] => []

/-- The decoder on any bytes. -/
def decodeBytes (n : OpNum) (bs : List Byte) : Except DecodeError Instr := decode n (wordsOfBytes bs)

/-- The four words of an instruction given as one number, bit 0 the least significant bit of the first word and every
bit from `nbits` up taken as 0: as spec/opcode_table.json numbers bits. -/
def tableWords (nbits w : Nat) : List Word :=
  [0, 16, 32, 48].map fun sh => BitVec.ofNat 16 ((w % 2 ^ nbits) / 2 ^ sh)

/-- What the decoder reads from an instruction whose bits are `w`, numbered as spec/opcode_table.json numbers them, under the
table's own numbering of the operations. -/
def decodeTableWord (nbits w : Nat) : Option Instr := (decode opcodeTable (tableWords nbits w)).toOption

end Sys2Proof
end

