-- ==== Sys2Proof/Machine/State.lean ====
section
/-! DEFINITION. The machine's state as plain data (spec/10_state.md), its value at reset (R28), and the reasons a step can
stop. -/

namespace Sys2Proof.Machine

/-- The eight abort causes (spec/60_exceptions.md R140), in the order of their codes 1 to 8. -/
inductive Cause where
  /-- opcode word 22..65535 (R141) -/
  | invalidOpcode
  /-- operand word 32776..65535 (R142) -/
  | operand
  /-- a literal where a destination must stand (R143) -/
  | destination
  /-- `pop` on an empty stack (R144) -/
  | stackUnderflow
  /-- `mod` with divisor 0 (R145) -/
  | divideByZero
  /-- `in` on an input source that has ended (R146) -/
  | ioExhausted
  /-- an instruction word at an address above 32767 (R147) -/
  | addressRange
  /-- a word above 32767 about to be written into a register (R148) -/
  | valueRange
  deriving DecidableEq, Repr

/-- The report of an abort (R24 `run.info`). -/
structure AbortInfo where
  /-- address of the opcode word of the aborting instruction -/
  pc : Word
  /-- the raw opcode word, 0 when it was not fetched -/
  opcode : Word
  /-- which operand was at fault, 1..3, or 0 when none -/
  index : Fin 4
  /-- the offending word -/
  word : Word
  deriving DecidableEq, Repr

/-- The run state (R20): one element with three values; the halted flag is the second (R21, C1). -/
inductive RunState where
  | running
  | halted
  | aborted (cause : Cause) (info : AbortInfo)
  deriving DecidableEq, Repr

/-- What the input source does once its listed bytes are consumed (R5 `INPUT`, R122). -/
inductive InputEnd where
  /-- the source is closed: it answers `Exhausted` -/
  | exhausted
  /-- the source is open and has no byte now: it does not answer (R124) -/
  | pending
  /-- the source never ends: it delivers the free bytes `Config.inputByte` by position -/
  | endless
  deriving DecidableEq, Repr

/-- The open parameters of R5 that a step depends on. They are arguments of the model, carried in the state because a step
has no other argument; no step changes them (DESIGN CHOICE, log 17, safe). -/
structure Params where
  /-- `OPNUM`: the numbering of the operations (R56) -/
  opnum : OpNum
  /-- `STACK_MAX`: the largest stack depth, or none (R17) -/
  stackMax : Option Nat
  deriving DecidableEq, Repr

/-- The parameters at their defaults (R5; logs 1 and 3). -/
def Params.default : Params where
  opnum := opcodeTable
  stackMax := Config.stackMax

/-- The whole machine: the five items of R10, the two channels beside them (R27), and the open parameters (R5). -/
structure State where
  /-- `OPNUM` and `STACK_MAX` (R5) -/
  params : Params
  /-- x[0]..x[7] (R11) -/
  regs : Vector Value 8
  /-- the instruction pointer (R14) -/
  pc : Word
  /-- the stack, its top first (R17); its length is `depth` (R18) -/
  stack : List Word
  /-- the run state (R20) -/
  run : RunState
  /-- memory (R22) as byte cells in canonical form: bits 7..0 of word `a` at `2a`, bits 15..8 at `2a + 1`, as in the
  program image (R36, R46). DESIGN CHOICE (log 10), safe: only whole words are read or written. -/
  mem : List Host.Cell
  /-- the bytes of the input not yet consumed, the next one first (R27) -/
  input : List Byte
  /-- what the source does after them (R122) -/
  inputEnd : InputEnd
  /-- how many input bytes have been consumed (R27, R173) -/
  inputPos : Nat
  /-- the bytes emitted so far, in order (R27, R123) -/
  output : List Byte
  deriving DecidableEq, Repr

/-- Why a step is not taken: a terminal state, in which "the machine takes no step" (R20, R62, R174), or an `in` whose source
has not answered, where "the machine has no enabled step" (R124, R180). DESIGN CHOICE (log 12): no step is a fault. -/
inductive Fault where
  /-- the run has ended in `Halted`. Raised by `step`. Safe: the hardware takes no step either. -/
  | halted
  /-- the run has ended in `Aborted`, with its report. Raised by `step`. Safe: the hardware takes no step either. -/
  | aborted (cause : Cause) (info : AbortInfo)
  /-- an `in` waits for its source. Raised by `execIn`. Safe: the hardware takes no step either, until the host moves. -/
  | waiting
  deriving DecidableEq, Repr

/-- Why an instruction has no meaning in the model. -/
inductive Refusal where
  /-- raised by an arm of `exec` for an instruction the model does not cover; no arm raises it. Safe. -/
  | notModelled (mnemonic : String)
  /-- raised by `push` and `call` when a finite `STACK_MAX` leaves no room: the spec "defines no overflow behaviour, so a model
  with a finite `STACK_MAX` must `refuse` a push beyond it" (93_implementation_defined.md U13). Never with the default. Safe. -/
  | stackFull
  deriving DecidableEq, Repr

/-- How a step or an instruction ends. -/
abbrev Result := Host.Outcome State Fault Refusal

/-- The answer of the input source to one pull (R122): a byte, with the state whose source has delivered it; that it has
ended; or none yet. -/
inductive InAnswer where
  | byte (b : Byte) (s : State)
  | exhausted
  | noAnswer
  deriving DecidableEq, Repr

/-- The machine right after reset (R28), with the parameters at their defaults, the empty program image and no input supplied.
DESIGN CHOICE (log 11): the image and the input are supplied per run; here both are empty and the input is closed. -/
def State.reset : State where
  params := Params.default
  regs := #v[0, 0, 0, 0, 0, 0, 0, 0]
  pc := 0
  stack := []
  run := .running
  mem := []
  input := []
  inputEnd := .exhausted
  inputPos := 0
  output := []

end Sys2Proof.Machine
end

