-- ==== Sys2Proof/Machine/Ops.lean ====
section
/-! DEFINITION. The named operations over memory, registers, stack, channels and run state: the primitives of
spec/00_scope.md R7, and taking an abort (spec/60_exceptions.md R151). There is no return from an abort (R152). -/

namespace Sys2Proof.Machine

/-! ### Memory -/

/-- What a byte of memory that is not listed reads as: its half of `MEM_FILL` (R28). -/
def Memory.fill (n : Nat) : Byte := if n % 2 = 0 then lowByte Config.memFill else highByte Config.memFill

/-- The byte cell `n`. -/
def Memory.readByte (m : List Host.Cell) (n : Nat) : Byte :=
  match m with
  | [] => Memory.fill n
  | (k, b) :: rest => if k = n then b else Memory.readByte rest n

/-- Put a cell before the first one with a greater address. -/
def Memory.insertCell (n : Nat) (b : Byte) (m : List Host.Cell) : List Host.Cell :=
  match m with
  | [] => [(n, b)]
  | (k, c) :: rest => if n < k then (n, b) :: (k, c) :: rest else (k, c) :: Memory.insertCell n b rest

/-- The memory without its cell `n`. -/
def Memory.eraseCell (m : List Host.Cell) (n : Nat) : List Host.Cell := m.filter fun e => e.1 != n

/-- Set the byte cell `n`, keeping the canonical form: a byte equal to the fill is not listed. -/
def Memory.writeByte (m : List Host.Cell) (n : Nat) (b : Byte) : List Host.Cell :=
  if b = Memory.fill n then Memory.eraseCell m n else Memory.insertCell n b (Memory.eraseCell m n)

/-- `MemRead(a, 1)`: the word at address `a` (R33). -/
def Memory.readWord (m : List Host.Cell) (a : Nat) : Word :=
  wordOfBytes (Memory.readByte m (2 * a)) (Memory.readByte m (2 * a + 1))

/-- `MemWrite(a, 1, w)` (R33). -/
def Memory.writeWord (m : List Host.Cell) (a : Nat) (w : Word) : List Host.Cell :=
  Memory.writeByte (Memory.writeByte m (2 * a) (lowByte w)) (2 * a + 1) (highByte w)

/-- The canonical form: addresses strictly rising, inside the 32768 words, no cell equal to the fill. -/
def Memory.wf (m : List Host.Cell) : Bool :=
  match m with
  | [] => true
  | (k, b) :: rest =>
    decide (k < 2 * Config.memWords) && decide (b ≠ Memory.fill k) && rest.all (fun e => decide (k < e.1)) &&
      Memory.wf rest

/-! ### Registers, instruction pointer, stack -/

/-- `x[i]` (R11). -/
def State.getReg (s : State) (i : RegIx) : Value := s.regs[i.val]

/-- `x[i] <- v` for a value `v` (R55, first branch). -/
def State.setReg (s : State) (i : RegIx) (v : Value) : State := { s with regs := s.regs.set i.val v }

/-- `pc <- t` (R15). -/
def State.setPc (s : State) (t : Word) : State := { s with pc := t }

/-- The sequential advance: `pc + 1 +` the operand count (R64). -/
def State.advance (s : State) (op : Opcode) : State := s.setPc (s.pc + BitVec.ofNat 16 op.length)

/-- `push(w)` (R17). It never fails of itself; whether there is room is `withRoom`'s question. -/
def State.push (s : State) (w : Word) : State := { s with stack := w :: s.stack }

/-- The stack pointer of the spec: how many words are on the stack (R18). -/
def State.depth (s : State) : Nat := s.stack.length

/-- A finite `STACK_MAX` is reached (R5). Never with the default, an unbounded stack (R17; UNVERIFIED: decision D14, log 3). -/
def State.full (s : State) : Bool :=
  match s.params.stackMax with
  | none => false
  | some m => decide (m ≤ s.depth)

/-- Go on where one more word fits on the stack; refuse where it does not, the spec defining no overflow behaviour (U13). -/
def withRoom (s : State) (r : Result) : Result := if s.full then .refused .stackFull else r

/-! ### Run state and aborts -/

/-- `run <- Halted` (R20, R80). -/
def State.halt (s : State) : State := { s with run := .halted }

/-- Abort entry: `run <- Aborted(cause, info)` and nothing else (R151). UNVERIFIED: that nothing else changes is the spec's
decision D6 (log 6); unsafe for a claim about the rest of an aborted state. -/
def State.abort (s : State) (c : Cause) (info : AbortInfo) : State := { s with run := .aborted c info }

/-- `raise` inside the instruction with operation `op`: operand `k` (0 for none) and the offending word `w` (R24, R151).
The state is the one in which the instruction began. -/
def State.raise (s : State) (op : Opcode) (k : Fin 4) (w : Word) (c : Cause) : Result :=
  .next (s.abort c { pc := s.pc, opcode := s.params.opnum.num op, index := k, word := w })

/-! ### The two channels -/

/-- `OutByte(b)` (R123). UNVERIFIED: that the sink always accepts is the spec's decision D12 (log 9); unsafe. -/
def State.emit (s : State) (b : Byte) : State := { s with output := s.output ++ [b] }

/-- `InByte()`: one pull from the input source (R122). -/
def State.pullByte (s : State) : InAnswer :=
  match s.input with
  | b :: rest => .byte b { s with input := rest, inputPos := s.inputPos + 1 }
  | [] =>
    match s.inputEnd with
    | .exhausted => .exhausted
    | .pending => .noAnswer
    | .endless => .byte (Config.inputByte s.inputPos) { s with inputPos := s.inputPos + 1 }

/-- `zext_16(b)`, as the value it is (R7, R121). -/
def byteValue (b : Byte) : Value := b.setWidth 15

/-- The word of a value: its 15 bits below a 0 (R12). -/
def valueWord (v : Value) : Word := v.setWidth 16

end Sys2Proof.Machine
end

