-- ==== Sys2Proof/Machine/Operands.lean ====
section
/-! DEFINITION. Resolving operands (spec/30_encoding.md R52 to R55): a value read, a destination named, a word narrowed to a
register's 15 bits, each with the abort it can raise. An instruction resolves its operands in order and has no effect
before the last of them (R62 phases 4 to 6), so the checks come in the order of R63 (UNVERIFIED: the spec's
decision D5, log 5). -/

namespace Sys2Proof.Machine

/-- `val(k)` where the operand has one (R53). -/
def State.val? (s : State) : Operand → Option Value
  | .literal v => some v
  | .register i => some (s.getReg i)
  | .invalid _ => none

/-- Go on with `val(k)`, or raise `AbortOperand` (R53, R142). -/
def withVal (op : Opcode) (k : Fin 4) (o : Operand) (s : State) (f : Value → Result) : Result :=
  match s.val? o with
  | some v => f v
  | none => s.raise op k o.word .operand

/-- Go on with `dst(k)`, or raise `AbortDestination` on a literal and `AbortOperand` on an invalid word (R54, R142, R143). -/
def withDst (op : Opcode) (k : Fin 4) (o : Operand) (s : State) (f : RegIx → Result) : Result :=
  match o with
  | .register i => f i
  | .literal _ => s.raise op k o.word .destination
  | .invalid _ => s.raise op k o.word .operand

/-- Go on with the word as a register's value, or raise `AbortValueRange` when it is above 32767 (R55, R148). `k` is the
operand the report names. UNVERIFIED: the abort is the spec's decision D4 (log 4); unsafe for a claim that a program
aborts. -/
def withNarrow (op : Opcode) (k : Fin 4) (w : Word) (s : State) (f : Value → Result) : Result :=
  if w.toNat ≤ 32767 then f (w.setWidth 15) else s.raise op k w .valueRange

/-- Format `DV` with a result computed from the value: `x[dst(1)] <- g val(2)`, then the sequential advance (R51, R64). -/
def unary (op : Opcode) (g : Value → Value) (d a : Operand) (s : State) : Result :=
  withDst op 1 d s fun i => withVal op 2 a s fun x => .next ((s.setReg i (g x)).advance op)

/-- Format `DVV` with a result computed from both values: `x[dst(1)] <- g val(2) val(3)`, then the sequential advance
(R51, R64). -/
def binary (op : Opcode) (g : Value → Value → Value) (d a b : Operand) (s : State) : Result :=
  withDst op 1 d s fun i => withVal op 2 a s fun x => withVal op 3 b s fun y =>
    .next ((s.setReg i (g x y)).advance op)

/-- Format `VV`, a conditional jump: to `val(2)` when the condition holds of `val(1)`, else the sequential advance (R95, R96). -/
def condJump (op : Opcode) (c : Value → Bool) (a t : Operand) (s : State) : Result :=
  withVal op 1 a s fun x => withVal op 2 t s fun y =>
    .next (if c x then s.setPc (valueWord y) else s.advance op)

end Sys2Proof.Machine
end

