-- ==== Sys2Proof/Machine/Arith.lean ====
section
/-! DEFINITION. The arithmetic and logic instructions (spec/44_alu.md). -/

namespace Sys2Proof.Machine

/-- `add d, a, b` (R100). -/
def execAdd (d a b : Operand) (s : State) : Result := binary .add Alu.add d a b s

/-- `mult d, a, b` (R101). -/
def execMult (d a b : Operand) (s : State) : Result := binary .mult Alu.mult d a b s

/-- `mod d, a, b` (R102): after the operand checks, a divisor of 0 raises `AbortDivideByZero`, which reports the raw third
operand word (R145). -/
def execMod (d a b : Operand) (s : State) : Result :=
  withDst .mod 1 d s fun i => withVal .mod 2 a s fun x => withVal .mod 3 b s fun y =>
    if y = 0 then s.raise .mod 3 b.word .divideByZero else .next ((s.setReg i (Alu.mod x y)).advance .mod)

/-- `and d, a, b` (R103). -/
def execAnd (d a b : Operand) (s : State) : Result := binary .and Alu.and d a b s

/-- `or d, a, b` (R104). -/
def execOr (d a b : Operand) (s : State) : Result := binary .or Alu.or d a b s

/-- `not d, a` (R105). -/
def execNot (d a : Operand) (s : State) : Result := unary .not Alu.not d a s

end Sys2Proof.Machine
end

