-- ==== Sys2Proof/Machine/Compare.lean ====
section
/-! DEFINITION. The comparisons `eq` and `gt` (spec/42_compare.md). -/

namespace Sys2Proof.Machine

/-- `eq d, a, b` (R90). -/
def execEq (d a b : Operand) (s : State) : Result := binary .eq Alu.eq d a b s

/-- `gt d, a, b` (R91). -/
def execGt (d a b : Operand) (s : State) : Result := binary .gt Alu.gt d a b s

end Sys2Proof.Machine
end

