-- ==== Sys2Proof/Machine/DataMemory.lean ====
section
/-! DEFINITION. The memory instructions `rmem` and `wmem` (spec/45_memory.md). The address is a resolved value, so it is
always inside memory (spec/20_memory.md R35). -/

namespace Sys2Proof.Machine

/-- `rmem d, a` (R110): a word above 32767 raises `AbortValueRange`, which names operand 2. -/
def execRmem (d a : Operand) (s : State) : Result :=
  withDst .rmem 1 d s fun i => withVal .rmem 2 a s fun ea =>
    withNarrow .rmem 2 (Memory.readWord s.mem ea.toNat) s fun v => .next ((s.setReg i v).advance .rmem)

/-- `wmem a, b` (R111): both operands are values; the first is the address, even when it is a register. -/
def execWmem (a b : Operand) (s : State) : Result :=
  withVal .wmem 1 a s fun ea => withVal .wmem 2 b s fun v =>
    .next (State.advance { s with mem := Memory.writeWord s.mem ea.toNat (valueWord v) } .wmem)

end Sys2Proof.Machine
end

