-- ==== Sys2Proof/Machine/Io.lean ====
section
/-! DEFINITION. The input/output instructions `out` and `in` (spec/47_io.md). -/

namespace Sys2Proof.Machine

/-- `out a` (R120): emit bits 7..0 of the value. -/
def execOut (a : Operand) (s : State) : Result :=
  withVal .out 1 a s fun x => .next ((s.emit (lowByte (valueWord x))).advance .out)

/-- `in d` (R121): the destination is checked before the source is asked. With no answer the machine waits: "the
machine has no enabled step" (R124, R180), which is the fault `waiting` (logs 12 and 14). -/
def execIn (d : Operand) (s : State) : Result :=
  withDst .in_ 1 d s fun i =>
    match s.pullByte with
    | .byte b s' => .next ((s'.setReg i (byteValue b)).advance .in_)
    | .exhausted => s.raise .in_ 0 0 .ioExhausted
    | .noAnswer => .fault .waiting

end Sys2Proof.Machine
end

