-- ==== Sys2Proof/Machine/Jump.lean ====
section
/-! DEFINITION. The jumps `jmp`, `jt`, `jf` (spec/43_jump.md): absolute targets, no delay slot (R177). -/

namespace Sys2Proof.Machine

/-- `jmp a` (R94). -/
def execJmp (a : Operand) (s : State) : Result := withVal .jmp 1 a s fun x => .next (s.setPc (valueWord x))

/-- `jt a, t` (R95): jump when the value is not 0. -/
def execJt (a t : Operand) (s : State) : Result := condJump .jt nonZero a t s

/-- `jf a, t` (R96): jump when the value is 0. -/
def execJf (a t : Operand) (s : State) : Result := condJump .jf (fun x => !nonZero x) a t s

end Sys2Proof.Machine
end

