-- ==== Sys2Proof/Machine/MoveStack.lean ====
section
/-! DEFINITION. The move and stack instructions `set`, `push`, `pop` (spec/41_move_stack.md). -/

namespace Sys2Proof.Machine

/-- `set d, a` (R84). -/
def execSet (d a : Operand) (s : State) : Result := unary .set (fun x => x) d a s

/-- `push a` (R85): the resolved value goes on the stack, never the raw word.
With a finite `STACK_MAX` a push beyond it is refused (R5, U13). -/
def execPush (a : Operand) (s : State) : Result :=
  withVal .push 1 a s fun x => withRoom s (.next ((s.push (valueWord x)).advance .push))

/-- `pop d` (R86): the destination is checked first, then the depth, then the range of the top word; the word is removed
only when all hold. -/
def execPop (d : Operand) (s : State) : Result :=
  withDst .pop 1 d s fun i =>
    match s.stack with
    | [] => s.raise .pop 0 0 .stackUnderflow
    | w :: rest => withNarrow .pop 1 w s fun v => .next ((State.setReg { s with stack := rest } i v).advance .pop)

end Sys2Proof.Machine
end

