-- ==== Sys2Proof/Machine/Subroutine.lean ====
section
/-! DEFINITION. The subroutine instructions `call` and `ret` (spec/46_call_ret.md). -/

namespace Sys2Proof.Machine

/-- `call a` (R114): push `pc + 2`, the address of the word after the operand, and jump. With a finite
`STACK_MAX` a push beyond it is refused (R5, U13). -/
def execCall (a : Operand) (s : State) : Result :=
  withVal .call 1 a s fun t => withRoom s (.next ((s.push (s.pc + 2)).setPc (valueWord t)))

/-- `ret` (R115): pop an address and jump to it, whatever it is; halt on an empty stack, with `pc` unchanged
(UNVERIFIED: decision D10, log 7; unsafe for a claim about the final `pc`). -/
def execRet (s : State) : Result :=
  match s.stack with
  | [] => .next s.halt
  | w :: rest => .next (State.setPc { s with stack := rest } w)

end Sys2Proof.Machine
end

