-- ==== Sys2Proof/Machine/System.lean ====
section
/-! DEFINITION. The system instructions `halt` and `noop` (spec/40_system.md). -/

namespace Sys2Proof.Machine

/-- `halt` (R80): stop; `pc` stays at the instruction (UNVERIFIED: decision D10, log 7; unsafe for a claim about
the final `pc`). -/
def execHalt (s : State) : Result := .next s.halt

/-- `noop` (R81): nothing but the advance. -/
def execNoop (s : State) : Result := .next (s.advance .noop)

end Sys2Proof.Machine
end

