-- ==== Sys2Proof/Machine/Dispatch.lean ====
section
/-! DEFINITION. One arm per instruction: phases 4 to 7 of the instruction cycle (spec/30_encoding.md R62). -/

namespace Sys2Proof.Machine

def exec (i : Instr) (s : State) : Host.Outcome State Fault Refusal :=
  match i with
  | .halt => Sys2Proof.Machine.execHalt s
  | .set d a => Sys2Proof.Machine.execSet d a s
  | .push a => Sys2Proof.Machine.execPush a s
  | .pop d => Sys2Proof.Machine.execPop d s
  | .eq d a b => Sys2Proof.Machine.execEq d a b s
  | .gt d a b => Sys2Proof.Machine.execGt d a b s
  | .jmp a => Sys2Proof.Machine.execJmp a s
  | .jt a t => Sys2Proof.Machine.execJt a t s
  | .jf a t => Sys2Proof.Machine.execJf a t s
  | .add d a b => Sys2Proof.Machine.execAdd d a b s
  | .mult d a b => Sys2Proof.Machine.execMult d a b s
  | .mod d a b => Sys2Proof.Machine.execMod d a b s
  | .and d a b => Sys2Proof.Machine.execAnd d a b s
  | .or d a b => Sys2Proof.Machine.execOr d a b s
  | .not d a => Sys2Proof.Machine.execNot d a s
  | .rmem d a => Sys2Proof.Machine.execRmem d a s
  | .wmem a b => Sys2Proof.Machine.execWmem a b s
  | .call a => Sys2Proof.Machine.execCall a s
  | .ret => Sys2Proof.Machine.execRet s
  | .out a => Sys2Proof.Machine.execOut a s
  | .in_ d => Sys2Proof.Machine.execIn d s
  | .noop => Sys2Proof.Machine.execNoop s

end Sys2Proof.Machine
end

