-- ==== Sys2Proof/Machine/Fetch.lean ====
section
/-! DEFINITION. Fetching an instruction (spec/30_encoding.md R62 phases 1 to 3, spec/20_memory.md R34) and placing one where
it is fetched. -/

namespace Sys2Proof.Machine

/-- The words a fetch at `pc` can see: those at `pc` to `pc + 3` whose address is a memory address. It never wraps (R34).
UNVERIFIED: the abort instead is the spec's decision D3 (log 8). -/
def State.fetchWindow (s : State) : List Word :=
  ([0, 1, 2, 3].filter fun k => decide (s.pc.toNat + k < Config.memWords)).map fun k =>
    Memory.readWord s.mem (s.pc.toNat + k)

/-- The report of a fetch that fails (R62 phases 1 to 3, R141, R147). -/
def State.fetchAbort (s : State) : DecodeError → Cause × AbortInfo
  | .noOpcode => (.addressRange, { pc := s.pc, opcode := 0, index := 0, word := s.pc })
  | .invalidOpcode w => (.invalidOpcode, { pc := s.pc, opcode := w, index := 0, word := w })
  | .missingOperand op k =>
    (.addressRange, { pc := s.pc, opcode := s.params.opnum.num op, index := k, word := s.pc + BitVec.ofNat 16 k.val })

/-- The instruction at `pc`, read afresh from memory (R44, R61), or the abort its fetch raises. -/
def State.fetch (s : State) : Except (Cause × AbortInfo) Instr :=
  match decode s.params.opnum s.fetchWindow with
  | .ok i => .ok i
  | .error e => .error (s.fetchAbort e)

/-- Memory with words placed from address `a` on; words past the end of memory are dropped. -/
def Memory.placeWords (m : List Host.Cell) (a : Nat) : List Word → List Host.Cell
  | [] => m
  | w :: ws => Memory.placeWords (if a < Config.memWords then Memory.writeWord m a w else m) (a + 1) ws

/-- The machine running, with words placed from `pc` on. -/
def State.placeAtPc (s : State) (ws : List Word) : State :=
  { s with mem := Memory.placeWords s.mem s.pc.toNat ws, run := .running }

end Sys2Proof.Machine
end

