-- ==== Sys2Proof/Machine/Step.lean ====
section
/-! DEFINITION. One step of the machine (spec/30_encoding.md R62). -/

namespace Sys2Proof.Machine

/-- One step: in `Running`, fetch and execute, or take the abort the fetch raises; in `Halted` and `Aborted` "the machine
has no step" (R62), which is a fault (log 12). -/
def step (s : State) : Host.Outcome State Fault Refusal :=
  match s.run with
  | .running =>
    match s.fetch with
    | .ok i => exec i s
    | .error (c, info) => .next (s.abort c info)
  | .halted => .fault .halted
  | .aborted c info => .fault (.aborted c info)

/-- `s` with an instruction, given as spec/opcode_table.json numbers its bits, stored where the next step fetches, and
running. It stands for a load of those words from outside (log 15). -/
def State.withFetchWord (s : State) (nbits w : Nat) : State := s.placeAtPc (tableWords nbits w)

end Sys2Proof.Machine
end

