-- ==== Sys2Proof/Machine/HostPort.lean ====
section
/-! DEFINITION. What the host does to the block, at transaction level (spec/70_reset_and_hazards.md R170 to R175): the
loader and reset, the input source's own moves, and the status the host reads. None of these is a step. -/

namespace Sys2Proof.Machine

/-! ### LOAD and RESET -/

/-- Why an image is rejected before the block leaves reset (spec/20_memory.md R47, spec/60_exceptions.md R159). -/
inductive LoadError where
  /-- an odd number of bytes: the final word is truncated -/
  | oddLength
  /-- more than 32768 words (decision D9) -/
  | tooLong
  deriving DecidableEq, Repr

/-- A memory whose words all hold `w`: what a `MEM_FILL` other than the default makes of memory before the load (R5). -/
def Memory.filled (w : Word) : List Host.Cell := Memory.placeWords [] 0 (List.replicate Config.memWords w)

/-- Load and release reset (R28, R46, R47, R170, R172): a fresh machine with the image in memory from address 0 and the
input source at its first byte, or the load error. The arguments are those of R5: `p` has `OPNUM` and `STACK_MAX`; `before` is
memory before the load, so that `M0` is the image and then `before` (`[]` where all the rest is the default `MEM_FILL`,
`Memory.filled w` where it is `w`); `input` and `ending` are `INPUT`, whose endless bytes are given step by step
(`State.supply`). A second reset is the same (decision D24). -/
def State.boot (p : Params) (before : List Host.Cell) (image input : List Byte) (ending : InputEnd) :
    Except LoadError State :=
  if image.length % 2 = 1 then .error .oddLength
  else if Config.memWords < image.length / 2 then .error .tooLong
  else .ok { State.reset with
    params := p, mem := Memory.placeWords before 0 (wordsOfBytes image), input := input, inputEnd := ending }

/-! ### IN: what the source does between two steps -/

/-- The open source gets one more byte to deliver (R122, R124). A source that is closed or endless is as it was. -/
def State.deliver (s : State) (b : Byte) : State :=
  match s.inputEnd with
  | .pending => { s with input := s.input ++ [b] }
  | .exhausted => s
  | .endless => s

/-- The open source closes: after its listed bytes it answers `Exhausted` (R124). -/
def State.closeInput (s : State) : State :=
  match s.inputEnd with
  | .pending => { s with inputEnd := .exhausted }
  | .exhausted => s
  | .endless => s

/-- An endless `INPUT` as an argument (R5): `source` says the byte at every position, and the next one is listed when the
endless source has none listed. Every infinite sequence is some `source`. -/
def State.supply (source : Nat → Byte) (s : State) : State :=
  if s.input.isEmpty && decide (s.inputEnd = .endless) then { s with input := [source s.inputPos] } else s

/-- The machine is held inside `in`: the source has no byte and has not ended (R124). -/
def State.sourceSilent (s : State) : Bool := s.input.isEmpty && decide (s.inputEnd = .pending)

/-! ### STATUS -/

/-- The numeric code of a cause (R140, decision D7). -/
def Cause.code : Cause → Nat
  | .invalidOpcode => 1
  | .operand => 2
  | .destination => 3
  | .stackUnderflow => 4
  | .divideByZero => 5
  | .ioExhausted => 6
  | .addressRange => 7
  | .valueRange => 8

/-- The fields the host reads (R24). -/
structure Status where
  state : Nat
  cause : Nat
  infoPc : Word
  infoOpcode : Word
  infoIndex : Nat
  infoWord : Word
  deriving DecidableEq, Repr

/-- The status fields of a run state: 0 Running, 1 Halted, 2 Aborted, and the report, 0 when there is none (R24). -/
def RunState.status : RunState → Status
  | .running => { state := 0, cause := 0, infoPc := 0, infoOpcode := 0, infoIndex := 0, infoWord := 0 }
  | .halted => { state := 1, cause := 0, infoPc := 0, infoOpcode := 0, infoIndex := 0, infoWord := 0 }
  | .aborted c i =>
    { state := 2, cause := c.code, infoPc := i.pc, infoOpcode := i.opcode, infoIndex := i.index.val, infoWord := i.word }

/-- `STATUS` (R175). -/
def State.status (s : State) : Status := s.run.status

end Sys2Proof.Machine
end

