-- ==== Sys2Proof/Machine/Run.lean ====
section
/-! DEFINITION. A whole run (spec/70_reset_and_hazards.md R172, R173): load, release reset, step until the run has ended,
report how. -/

namespace Sys2Proof.Machine

/-- At most `n` steps, the bytes of an endless input taken from `source`; a terminal state is kept (R174), and so is a state
that waits (R124). So is a state whose step is refused, a finite `STACK_MAX` being reached: DESIGN CHOICE (log 18), the spec
defining no behaviour there (U13); unsafe for a claim about the state of such a run. -/
def runSteps (source : Nat → Byte) : Nat → State → State
  | 0, s => s
  | n + 1, s =>
    match step (s.supply source) with
    | .next s' => runSteps source n s'
    | .fault _ => s
    | .refused _ => s

/-- What the host reports of a run (R159, R172), or that it has not ended (R173): it goes on, waits, or has come to a step that
is refused. That a refused run is `unfinished` is a DESIGN CHOICE (log 18); unsafe for a claim that such a run does not end. -/
inductive RunReport where
  | loadError (e : LoadError)
  | halted
  | aborted (cause : Cause) (info : AbortInfo)
  | unfinished
  deriving DecidableEq, Repr

/-- The report a state gives. -/
def State.report (s : State) : RunReport :=
  match s.run with
  | .running => .unfinished
  | .halted => .halted
  | .aborted c i => .aborted c i

/-- One run: the loader's check, then at most `n` steps from the reset state, then the report (R172). All the parameters of
R5 are arguments. A run in which a step is refused is reported `unfinished` (DESIGN CHOICE, log 18). -/
def runImage (n : Nat) (p : Params) (before : List Host.Cell) (image input : List Byte) (ending : InputEnd)
    (source : Nat → Byte) : RunReport :=
  match State.boot p before image input ending with
  | .error e => .loadError e
  | .ok s => (runSteps source n s).report

end Sys2Proof.Machine
end

