-- ==== Sys2Proof/Safety.lean ====
section
/-! DEFINITION. The terms claims use: the invariant of reachable states, and the operands an instruction aborts on. -/

namespace Sys2Proof.Machine

/-- What holds in every reachable state: memory is canonical; `pc` is at most 32768 (R16); so is every word on the stack
(R19), whose depth a finite `STACK_MAX` bounds; `OPNUM` is a bijection (R5); and the report of an abort is of the instruction
`pc` points at (R151). -/
structure State.Inv (s : State) : Prop where
  mem : Memory.wf s.mem = true
  pc : s.pc.toNat ≤ 32768
  stack : ∀ w ∈ s.stack, w.toNat ≤ 32768
  depth : ∀ m, s.params.stackMax = some m → s.depth ≤ m
  opnum : s.params.opnum.wf = true
  report : ∀ c info, s.run = .aborted c info → info.pc = s.pc

/-- What phase 4 finds in one operand (R62): nothing, or the cause it raises. -/
def operandFault : Role → Operand → Option Cause
  | _, .invalid _ => some .operand
  | .dest, .literal _ => some .destination
  | .dest, .register _ => none
  | .value, .literal _ => none
  | .value, .register _ => none

/-- Phase 4 from operand `k` on (R62, R63): the cause, index and word of the first operand at fault. -/
def firstOperandFault (k : Nat) : List (Role × Operand) → Option (Cause × Fin 4 × Word)
  | [] => none
  | (r, o) :: rest =>
    match operandFault r o with
    | some c => some (c, Fin.ofNat 4 k, o.word)
    | none => firstOperandFault (k + 1) rest

/-- The run has ended (R173). -/
def State.terminal (s : State) : Prop := s.run ≠ .running

end Sys2Proof.Machine
end

