-- ==== Sys2Proof/Certificates/Slice0/Obligations.lean ====
section
/-! DEFINITION. The statements for the provers. Each docstring names the rule or section of spec/ it formalises. A statement
of an instruction's result is an equation whose right side is the whole next state, so it is its frame and its completion too.
A statement about every state is one about every numbering of the operations and every `STACK_MAX` (the parameters of R5, in
`State.params`); the numbers written out are the spec's default numbering, its decision D1 (log 1). -/

open Sys2Proof Sys2Proof.Machine

/-! ### Encoding and decoding -/

/-- R50, R51, R56, R60 together: under every numbering, the words of any instruction, with any operands, decode to it whatever
words follow, and their number is the one its operation has. -/
def Obligations.DecodeOfEncodeIsTheInstruction : Prop :=
  ∀ (n : OpNum) (i : Instr) (rest : List Word), n.wf = true →
    decode n (encode n i ++ rest) = .ok i ∧ (encode n i).length = i.opcode.length

/-- R51, R59: under every numbering, an instruction is read only from its own words, so no bit of an instruction is ignored. -/
def Obligations.DecodedWordsAreTheEncoding : Prop :=
  ∀ (n : OpNum) (ws : List Word) (i : Instr), n.wf = true → decode n ws = .ok i → ∃ rest, ws = encode n i ++ rest

/-- Words written out from the encodings of R80 to R121, one or more per family. The numbering is the spec's default
`OPNUM` (decision D1, log 1). -/
def Obligations.WrittenOutWordsDecode : Prop :=
  decode opcodeTable [0] = .ok .halt ∧ decode opcodeTable [1, 32769, 1234] = .ok (.set (.register 1) (.literal 1234)) ∧
  decode opcodeTable [2, 32775] = .ok (.push (.register 7)) ∧ decode opcodeTable [3, 32768] = .ok (.pop (.register 0)) ∧
  decode opcodeTable [4, 32768, 32769, 7] = .ok (.eq (.register 0) (.register 1) (.literal 7)) ∧
  decode opcodeTable [7, 0, 32776] = .ok (.jt (.literal 0) (.invalid 0)) ∧
  decode opcodeTable [9, 32768, 32767, 1] = .ok (.add (.register 0) (.literal 32767) (.literal 1)) ∧
  decode opcodeTable [16, 100, 65535] = .ok (.wmem (.literal 100) (.invalid 32759)) ∧
  decode opcodeTable [17, 50] = .ok (.call (.literal 50)) ∧ decode opcodeTable [20, 5] = .ok (.in_ (.literal 5))

/-- R57: the operand counts, mnemonic by mnemonic. Beside it the numbering, which is `OPNUM` of R5 and R56: the default, the
spec's decision D1 and not the source's word (log 1), is a bijection; and under every bijection each operation's number is at
most 21 and leads back to it, whatever the default is. -/
def Obligations.OperandCountsByMnemonic : Prop :=
  (∀ op ∈ [Opcode.halt, .ret, .noop], op.operandCount = 0) ∧
  (∀ op ∈ [Opcode.push, .pop, .jmp, .call, .out, .in_], op.operandCount = 1) ∧
  (∀ op ∈ [Opcode.set, .jt, .jf, .not, .rmem, .wmem], op.operandCount = 2) ∧
  (∀ op ∈ [Opcode.eq, .gt, .add, .mult, .mod, .and, .or], op.operandCount = 3) ∧
  opcodeTable.wf = true ∧
  (∀ (n : OpNum) (op : Opcode), n.wf = true → (n.num op).toNat ≤ 21 ∧ n.ofWord (n.num op) = some op) ∧
  ∀ i : Instr, i.operands.length = i.opcode.operandCount

/-- R52: the classification of a raw operand word by its range, the same in every position; and an instruction with an invalid
operand word aborts, whatever the operand's role and whether or not the instruction would use it, with `AbortOperand` unless a
literal destination is met first (the order is the spec's decision D5, log 5; that nothing else changes, D6, log 6). -/
def Obligations.OperandWordsAreClassifiedByRange : Prop :=
  (∀ w : Word, w.toNat ≤ 32767 → ∃ v : Value, Operand.classify w = .literal v ∧ v.toNat = w.toNat) ∧
  (∀ w : Word, 32768 ≤ w.toNat → w.toNat ≤ 32775 →
    ∃ i : RegIx, Operand.classify w = .register i ∧ i.val = w.toNat - 32768) ∧
  (∀ w : Word, 32776 ≤ w.toNat → (Operand.classify w).valid = false) ∧
  (∀ w : Word, (Operand.classify w).word = w) ∧
  ∀ (i : Instr) (s : State), (∃ p ∈ i.operands, p.2.valid = false) →
    ∃ c info, exec i s = .next { s with run := .aborted c info } ∧
      (c = .operand ∨ c = .destination ∧ ∃ v, i.operands.head? = some (.dest, .literal v))

/-- R53: a value operand resolves to the literal or to the register's current content. -/
def Obligations.ValueOperandsResolve : Prop :=
  ∀ (s : State) (w : Word),
    (w.toNat ≤ 32767 → ∃ v : Value, s.val? (Operand.classify w) = some v ∧ v.toNat = w.toNat) ∧
    (∀ i : RegIx, w.toNat = 32768 + i.val → s.val? (Operand.classify w) = some (s.getReg i)) ∧
    (32776 ≤ w.toNat → s.val? (Operand.classify w) = none)

/-! ### The instruction cycle -/

/-- R62: a running machine whose fetched words decode to an instruction executes exactly that instruction; nothing is
added around it. -/
def Obligations.StepRunsTheDecodedInstruction : Prop :=
  ∀ (s : State) (i : Instr), s.run = .running → decode s.params.opnum s.fetchWindow = .ok i → step s = exec i s

/-- R50, R62: when memory holds an instruction's words from `pc` on, inside the 32768 words, the step executes it. -/
def Obligations.InstructionInMemoryIsExecuted : Prop :=
  ∀ (s : State) (i : Instr), s.run = .running → s.params.opnum.wf = true →
    s.pc.toNat + (encode s.params.opnum i).length ≤ 32768 →
    (∀ k : Fin (encode s.params.opnum i).length,
      Memory.readWord s.mem (s.pc.toNat + k.val) = (encode s.params.opnum i)[k]) →
    step s = exec i s

/-- R61: under one numbering, fetching depends on `pc` and memory alone. -/
def Obligations.FetchDependsOnPcAndMemory : Prop :=
  ∀ s t : State, s.params.opnum = t.params.opnum → s.pc = t.pc →
    (∀ a, a < 32768 → Memory.readWord s.mem a = Memory.readWord t.mem a) → s.fetch = t.fetch

/-- R58, R141: an opcode word above 21 aborts before any operand word is read, and nothing but the run state changes. The last
is the spec's decision D6 (log 6). -/
def Obligations.IllegalOpcodeWordAborts : Prop :=
  ∀ (s : State) (w : Word), s.run = .running → s.pc.toNat ≤ 32767 → Memory.readWord s.mem s.pc.toNat = w →
    21 < w.toNat →
    step s = .next { s with run := .aborted .invalidOpcode { pc := s.pc, opcode := w, index := 0, word := w } }

/-- R34, R147: a fetch above 32767 aborts and does not wrap: at the opcode word, and at the first operand word past the end. The
source does not cover the case: the abort is the spec's decision D3 (log 8). That an abort leaves everything else as it was is
decision D6 (log 6). -/
def Obligations.FetchPastTheEndAborts : Prop :=
  (∀ s : State, s.run = .running → 32767 < s.pc.toNat →
    step s = .next { s with run := .aborted .addressRange { pc := s.pc, opcode := 0, index := 0, word := s.pc } }) ∧
  ∀ (s : State) (op : Opcode) (k : Fin 4), s.run = .running → s.params.opnum.wf = true →
    Memory.readWord s.mem s.pc.toNat = s.params.opnum.num op →
    1 ≤ k.val → k.val ≤ op.operandCount → s.pc.toNat + k.val = 32768 →
    step s = .next { s with
      run := .aborted .addressRange { pc := s.pc, opcode := s.params.opnum.num op, index := k, word := 32768 } }

/-- R63 (4), R142, R143: the first operand at fault, in the order of the words, gives the report, for every instruction; and
where no operand is at fault neither of the two causes is raised. The order is the spec's decision D5 (log 5). That an abort
leaves everything else as it was is decision D6 (log 6). -/
def Obligations.FirstOperandAtFaultAborts : Prop :=
  (∀ (i : Instr) (s : State) (c : Cause) (k : Fin 4) (w : Word), firstOperandFault 1 i.operands = some (c, k, w) →
    exec i s = .next { s with
      run := .aborted c { pc := s.pc, opcode := s.params.opnum.num i.opcode, index := k, word := w } }) ∧
  ∀ (i : Instr) (s t : State) (c : Cause) (info : AbortInfo), firstOperandFault 1 i.operands = none →
    s.run = .running → exec i s = .next t → t.run = .aborted c info → c ≠ .operand ∧ c ≠ .destination

/-- R20, R62, R174: a machine that has halted or aborted takes no step. The fault is the model's way to say so (log 12). -/
def Obligations.TerminalStatesTakeNoStep : Prop :=
  (∀ s : State, s.run = .halted → step s = .fault .halted) ∧
  ∀ (s : State) (c : Cause) (info : AbortInfo), s.run = .aborted c info → step s = .fault (.aborted c info)

/-- R124, R180: a running machine has a next state, except that at an `in` whose source has not answered, and only there, no
step is enabled, which the model says by the fault `waiting` (logs 12, 14). The refusal is that of a push beyond a finite
`STACK_MAX` (93_implementation_defined.md U13), which the default does not have. -/
def Obligations.RunningMachineHasANextState : Prop :=
  (∀ (i : Instr) (s : State), (i.opcode = .in_ → s.sourceSilent = false) →
    (i.opcode = .push ∨ i.opcode = .call → s.full = false) → ∃ t, exec i s = .next t) ∧
  ∀ s : State, s.run = .running →
    (step s = .fault .waiting ↔ s.sourceSilent = true ∧ ∃ r, s.fetch = .ok (.in_ (.register r))) ∧
    (∀ f, step s = .fault f → f = .waiting) ∧
    ∀ r, step s = .refused r → r = .stackFull ∧ (∃ m, s.params.stackMax = some m ∧ m ≤ s.stack.length) ∧
      ∃ a, s.fetch = .ok (.push a) ∨ s.fetch = .ok (.call a)

/-! ### The instructions -/

/-- R80: `halt` ends the run and changes nothing else. (That `pc` stays is the spec's decision D10, log 7.) -/
def Obligations.HaltStopsTheMachine : Prop :=
  encode opcodeTable .halt = [0] ∧ ∀ s : State, exec .halt s = .next { s with run := .halted }

/-- R81: `noop` only advances. -/
def Obligations.NoopOnlyAdvances : Prop :=
  encode opcodeTable .noop = [21] ∧ ∀ s : State, exec .noop s = .next { s with pc := s.pc + 1 }

/-- R84: `set d, a`. -/
def Obligations.SetCopiesAValue : Prop :=
  ∀ (s : State) (i : RegIx) (a : Operand) (x : Value), s.val? a = some x →
    encode opcodeTable (.set (.register i) a) = [1, BitVec.ofNat 16 (32768 + i.val), a.word] ∧
    exec (.set (.register i) a) s = .next { s with regs := s.regs.set i.val x, pc := s.pc + 3 }

/-- R85: `push a` puts the resolved value on top of the stack, where a finite `STACK_MAX` leaves room: with the default there is
always room (decision D14, log 3). -/
def Obligations.PushPutsTheValueOnTop : Prop :=
  ∀ (s : State) (a : Operand) (x : Value), s.val? a = some x →
    (∀ m, s.params.stackMax = some m → s.stack.length < m) →
    encode opcodeTable (.push a) = [2, a.word] ∧
    ∃ w : Word, w.toNat = x.toNat ∧ exec (.push a) s = .next { s with stack := w :: s.stack, pc := s.pc + 2 }

/-- R86, R144: `pop d`: underflow on an empty stack, a value range abort on a word above 32767, else the word moves from the
stack to the register. (The second abort is the spec's decision D4, log 4.) That an abort leaves everything else as it was is
decision D6 (log 6). -/
def Obligations.PopMovesTheTopToARegister : Prop :=
  ∀ (s : State) (i : RegIx),
    encode opcodeTable (.pop (.register i)) = [3, BitVec.ofNat 16 (32768 + i.val)] ∧
    (s.stack = [] → exec (.pop (.register i)) s =
      .next { s with
        run := .aborted .stackUnderflow { pc := s.pc, opcode := s.params.opnum.num .pop, index := 0, word := 0 } }) ∧
    (∀ w rest, s.stack = w :: rest → 32767 < w.toNat → exec (.pop (.register i)) s =
      .next { s with
        run := .aborted .valueRange { pc := s.pc, opcode := s.params.opnum.num .pop, index := 1, word := w } }) ∧
    ∀ w rest, s.stack = w :: rest → w.toNat ≤ 32767 → ∃ v : Value, v.toNat = w.toNat ∧
      exec (.pop (.register i)) s = .next { s with regs := s.regs.set i.val v, stack := rest, pc := s.pc + 2 }

/-- R90, R91: the comparisons write exactly 1 or 0, comparing resolved values. That `gt` compares unsigned numbers is the spec's
own inference (R91, from R6; D21 in 92_eei_decisions.md). -/
def Obligations.ComparisonsWriteOneOrZero : Prop :=
  ∀ (s : State) (i : RegIx) (a b : Operand) (x y : Value), s.val? a = some x → s.val? b = some y →
    encode opcodeTable (.eq (.register i) a b) = [4, BitVec.ofNat 16 (32768 + i.val), a.word, b.word] ∧
    encode opcodeTable (.gt (.register i) a b) = [5, BitVec.ofNat 16 (32768 + i.val), a.word, b.word] ∧
    exec (.eq (.register i) a b) s =
      .next { s with regs := s.regs.set i.val (if x.toNat = y.toNat then 1 else 0), pc := s.pc + 4 } ∧
    exec (.gt (.register i) a b) s =
      .next { s with regs := s.regs.set i.val (if y.toNat < x.toNat then 1 else 0), pc := s.pc + 4 }

/-- R94: `jmp a` goes to the value. -/
def Obligations.JmpGoesToTheValue : Prop :=
  ∀ (s : State) (a : Operand) (x : Value), s.val? a = some x →
    encode opcodeTable (.jmp a) = [6, a.word] ∧ ∃ w : Word, w.toNat = x.toNat ∧ exec (.jmp a) s = .next { s with pc := w }

/-- R95, R96: `jt` jumps when the first value is not 0, `jf` when it is 0; otherwise they advance by 3. -/
def Obligations.ConditionalJumpsTestForZero : Prop :=
  ∀ (s : State) (a t : Operand) (x y : Value), s.val? a = some x → s.val? t = some y →
    encode opcodeTable (.jt a t) = [7, a.word, t.word] ∧ encode opcodeTable (.jf a t) = [8, a.word, t.word] ∧
    ∃ w : Word, w.toNat = y.toNat ∧
      exec (.jt a t) s = .next { s with pc := if x.toNat ≠ 0 then w else s.pc + 3 } ∧
      exec (.jf a t) s = .next { s with pc := if x.toNat = 0 then w else s.pc + 3 }

/-- R100, R101: the sum and the exact product, modulo 32768. -/
def Obligations.AddAndMultWrapModulo32768 : Prop :=
  ∀ (s : State) (i : RegIx) (a b : Operand) (x y : Value), s.val? a = some x → s.val? b = some y →
    encode opcodeTable (.add (.register i) a b) = [9, BitVec.ofNat 16 (32768 + i.val), a.word, b.word] ∧
    encode opcodeTable (.mult (.register i) a b) = [10, BitVec.ofNat 16 (32768 + i.val), a.word, b.word] ∧
    (∃ v : Value, v.toNat = (x.toNat + y.toNat) % 32768 ∧
      exec (.add (.register i) a b) s = .next { s with regs := s.regs.set i.val v, pc := s.pc + 4 }) ∧
    ∃ v : Value, v.toNat = (x.toNat * y.toNat) % 32768 ∧
      exec (.mult (.register i) a b) s = .next { s with regs := s.regs.set i.val v, pc := s.pc + 4 }

/-- R102, R145: the remainder for a divisor that is not 0; a zero divisor aborts and reports the raw third operand word. That an
abort leaves everything else as it was is decision D6 (log 6). -/
def Obligations.ModIsTheRemainderOrAborts : Prop :=
  ∀ (s : State) (i : RegIx) (a b : Operand) (x y : Value), s.val? a = some x → s.val? b = some y →
    encode opcodeTable (.mod (.register i) a b) = [11, BitVec.ofNat 16 (32768 + i.val), a.word, b.word] ∧
    (y.toNat = 0 → exec (.mod (.register i) a b) s =
      .next { s with
        run := .aborted .divideByZero { pc := s.pc, opcode := s.params.opnum.num .mod, index := 3, word := b.word } }) ∧
    (y.toNat ≠ 0 → ∃ (v : Value) (q : Nat), v.toNat < y.toNat ∧ x.toNat = q * y.toNat + v.toNat ∧
      exec (.mod (.register i) a b) s = .next { s with regs := s.regs.set i.val v, pc := s.pc + 4 })

/-- R103, R104: bit by bit, bits 14 to 0. -/
def Obligations.AndAndOrWorkBitByBit : Prop :=
  ∀ (s : State) (i : RegIx) (a b : Operand) (x y : Value), s.val? a = some x → s.val? b = some y →
    encode opcodeTable (.and (.register i) a b) = [12, BitVec.ofNat 16 (32768 + i.val), a.word, b.word] ∧
    encode opcodeTable (.or (.register i) a b) = [13, BitVec.ofNat 16 (32768 + i.val), a.word, b.word] ∧
    (∃ v : Value, (∀ j, j < 15 → v.getLsbD j = (x.getLsbD j && y.getLsbD j)) ∧
      exec (.and (.register i) a b) s = .next { s with regs := s.regs.set i.val v, pc := s.pc + 4 }) ∧
    ∃ v : Value, (∀ j, j < 15 → v.getLsbD j = (x.getLsbD j || y.getLsbD j)) ∧
      exec (.or (.register i) a b) s = .next { s with regs := s.regs.set i.val v, pc := s.pc + 4 }

/-- R105: the complement within 15 bits, `32767 - a`. -/
def Obligations.NotComplementsFifteenBits : Prop :=
  ∀ (s : State) (i : RegIx) (a : Operand) (x : Value), s.val? a = some x →
    encode opcodeTable (.not (.register i) a) = [14, BitVec.ofNat 16 (32768 + i.val), a.word] ∧
    ∃ v : Value, v.toNat = 32767 - x.toNat ∧ (∀ j, j < 15 → v.getLsbD j = !x.getLsbD j) ∧
      exec (.not (.register i) a) s = .next { s with regs := s.regs.set i.val v, pc := s.pc + 3 }

/-- R110, R148: `rmem d, a` reads the word at the value's address, and aborts when the word is above 32767 (the abort is the
spec's decision D4, log 4). That an abort leaves everything else as it was is decision D6 (log 6). -/
def Obligations.RmemReadsAWordOrAborts : Prop :=
  ∀ (s : State) (i : RegIx) (a : Operand) (ea : Value) (w : Word), s.val? a = some ea →
    Memory.readWord s.mem ea.toNat = w →
    encode opcodeTable (.rmem (.register i) a) = [15, BitVec.ofNat 16 (32768 + i.val), a.word] ∧
    (32767 < w.toNat → exec (.rmem (.register i) a) s =
      .next { s with
        run := .aborted .valueRange { pc := s.pc, opcode := s.params.opnum.num .rmem, index := 2, word := w } }) ∧
    (w.toNat ≤ 32767 → ∃ v : Value, v.toNat = w.toNat ∧
      exec (.rmem (.register i) a) s = .next { s with regs := s.regs.set i.val v, pc := s.pc + 3 })

/-- R111: `wmem a, b` stores the value at the word whose address is the first value, and nothing else changes but `pc`. The frame
is said over the two byte cells the model holds a word in, which is the model's choice (log 10): a byte has no address in the
spec (R31). Those two cells hold the value, and every other cell reads as before. -/
def Obligations.WmemStoresOneWord : Prop :=
  ∀ (s : State) (a b : Operand) (ea v : Value), s.val? a = some ea → s.val? b = some v →
    encode opcodeTable (.wmem a b) = [16, a.word, b.word] ∧
    ∃ m : List Host.Cell, exec (.wmem a b) s = .next { s with mem := m, pc := s.pc + 3 } ∧
      (Memory.readWord m ea.toNat).toNat = v.toNat ∧
      ∀ n, n ≠ 2 * ea.toNat → n ≠ 2 * ea.toNat + 1 → Memory.readByte m n = Memory.readByte s.mem n

/-- R114: `call a` pushes `pc + 2` and jumps, where a finite `STACK_MAX` leaves room: with the default there is always room
(log 3). -/
def Obligations.CallPushesTheReturnAddress : Prop :=
  ∀ (s : State) (a : Operand) (x : Value), s.val? a = some x →
    (∀ m, s.params.stackMax = some m → s.stack.length < m) →
    encode opcodeTable (.call a) = [17, a.word] ∧
    ∃ w : Word, w.toNat = x.toNat ∧ exec (.call a) s = .next { s with stack := (s.pc + 2) :: s.stack, pc := w }

/-- R5, and 93_implementation_defined.md U13: with a finite `STACK_MAX` that is reached, `push` and `call` are refused, the spec
defining no overflow behaviour. (`STACK_MAX` is decision D14, log 3.) -/
def Obligations.FiniteStackRefusesAPushBeyondIt : Prop :=
  ∀ (s : State) (a : Operand) (x : Value) (m : Nat), s.val? a = some x → s.params.stackMax = some m →
    m ≤ s.stack.length → exec (.push a) s = .refused .stackFull ∧ exec (.call a) s = .refused .stackFull

/-- R115: `ret` jumps to the popped word, whatever it is; on an empty stack it halts and `pc` stays (the
last is the spec's decision D10, log 7). -/
def Obligations.RetPopsTheAddressOrHalts : Prop :=
  encode opcodeTable .ret = [18] ∧ (∀ s : State, s.stack = [] → exec .ret s = .next { s with run := .halted }) ∧
  ∀ (s : State) (w : Word) (rest : List Word), s.stack = w :: rest →
    exec .ret s = .next { s with stack := rest, pc := w }

/-- R120: `out a` emits the value modulo 256; the sink always takes it (decision D12, log 9). -/
def Obligations.OutEmitsTheLowByte : Prop :=
  ∀ (s : State) (a : Operand) (x : Value), s.val? a = some x →
    encode opcodeTable (.out a) = [19, a.word] ∧
    ∃ b : Byte, b.toNat = x.toNat % 256 ∧ exec (.out a) s = .next { s with output := s.output ++ [b], pc := s.pc + 2 }

/-- R121: `in d` with a byte to deliver: the byte, zero-extended, is in the register and consumed. The bytes of an endless
source are free values (log 13): the statement holds for every one. That the byte is zero-extended is the spec's decision
D13. -/
def Obligations.InReadsOneByte : Prop :=
  ∀ (s : State) (i : RegIx),
    encode opcodeTable (.in_ (.register i)) = [20, BitVec.ofNat 16 (32768 + i.val)] ∧
    (∀ b rest, s.input = b :: rest → ∃ v : Value, v.toNat = b.toNat ∧ exec (.in_ (.register i)) s =
      .next { s with regs := s.regs.set i.val v, pc := s.pc + 2, input := rest, inputPos := s.inputPos + 1 }) ∧
    (s.input = [] → s.inputEnd = .endless → ∃ v : Value, v.toNat = (Config.inputByte s.inputPos).toNat ∧
      exec (.in_ (.register i)) s =
        .next { s with regs := s.regs.set i.val v, pc := s.pc + 2, inputPos := s.inputPos + 1 })

/-- R146: `in` on a source that has ended aborts; no byte is consumed and no register is written. That an abort leaves
everything else as it was is decision D6 (log 6). -/
def Obligations.InOnAnEndedSourceAborts : Prop :=
  ∀ (s : State) (i : RegIx), s.input = [] → s.inputEnd = .exhausted →
    opcodeTable.num .in_ = 20 ∧ exec (.in_ (.register i)) s = .next { s with
      run := .aborted .ioExhausted { pc := s.pc, opcode := s.params.opnum.num .in_, index := 0, word := 0 } }

/-- R124: while the open source has no byte no step is enabled at an `in`, which the model says by a fault (logs 12, 14); a byte
delivered completes the `in`, and the source closing aborts it, both from the state before the `in`. That an abort leaves
everything else as it was is decision D6 (log 6). -/
def Obligations.OnlyTheSourceLiftsAWait : Prop :=
  ∀ (s : State) (i : RegIx), s.run = .running → s.fetch = .ok (.in_ (.register i)) → s.sourceSilent = true →
    step s = .fault .waiting ∧
    (∀ b : Byte, ∃ v : Value, v.toNat = b.toNat ∧ step (s.deliver b) =
      .next { s with regs := s.regs.set i.val v, pc := s.pc + 2, inputPos := s.inputPos + 1 }) ∧
    step s.closeInput = .next { s with
      inputEnd := .exhausted,
      run := .aborted .ioExhausted { pc := s.pc, opcode := s.params.opnum.num .in_, index := 0, word := 0 } }

/-- An endless `INPUT` as an argument, which the model gives by `State.supply`, its own choice (log 13). Whatever the source, an `in`
that takes its byte from it reads the byte at its position in the input, once (from R5 and R122); and `State.supply` leaves a
state that does not take its next byte from the source as it is, which no rule of the spec says. -/
def Obligations.EndlessSourceIsReadByPosition : Prop :=
  ∀ (source : Nat → Byte) (s : State) (i : RegIx),
    (s.run = .running → s.fetch = .ok (.in_ (.register i)) → s.input = [] → s.inputEnd = .endless →
      ∃ v : Value, v.toNat = (source s.inputPos).toNat ∧ step (s.supply source) =
        .next { s with regs := s.regs.set i.val v, pc := s.pc + 2, inputPos := s.inputPos + 1 }) ∧
    (s.input ≠ [] ∨ s.inputEnd ≠ .endless → s.supply source = s)

/-! ### Rules of the whole machine -/

/-- R5, R16, R19, R151 and the canonical form of memory (log 10): every step keeps the invariant of reachable states. That `pc`
stays at the aborting instruction is decision D6 (log 6). -/
def Obligations.EveryStepKeepsTheInvariant : Prop :=
  ∀ s t : State, s.Inv → step s = .next t → t.Inv

/-- R5, R16, R19, R28: the invariant of reachable states holds at reset. The canonical form of memory, a part of the invariant, is
the model's choice (log 10), as is the empty image of `State.reset` (log 11). -/
def Obligations.ResetSatisfiesTheInvariant : Prop := State.reset.Inv

/-- R5, R16, R19, R151 over whole runs: whatever the parameters, the image, the memory beyond it and the input, every state of
the run satisfies the invariant. This rests on choices of the model: the canonical form of memory (log 10); the bytes of an
endless input, which `State.supply` lists before a step (log 13); and the state a run keeps where `step` answers no next state,
be it terminal or waiting (logs 12, 14) or refused under a finite `STACK_MAX`, where the spec defines no behaviour (log 18).
That `pc` stays at the aborting instruction is decision D6 (log 6). -/
def Obligations.EveryRunOfEveryImageKeepsTheInvariant : Prop :=
  ∀ (p : Params) (before : List Host.Cell) (image input : List Byte) (ending : InputEnd) (source : Nat → Byte) (s : State)
    (n : Nat), p.opnum.wf = true → Memory.wf before = true → State.boot p before image input ending = .ok s →
    (runSteps source n s).Inv

/-- R5, R60: `OPNUM` and `STACK_MAX` are fixed for the machine: no step changes them (log 17). -/
def Obligations.NoStepChangesTheParameters : Prop :=
  ∀ s t : State, step s = .next t → t.params = s.params

/-- R151: a step that ends in an abort changes the run state and nothing else, reports the instruction at `pc`, and is the
last step. That everything else is untouched is the spec's decision D6 (log 6). -/
def Obligations.AbortChangesOnlyTheRunState : Prop :=
  ∀ (s t : State) (c : Cause) (info : AbortInfo), step s = .next t → t.run = .aborted c info →
    t = { s with run := .aborted c info } ∧ info.pc = s.pc ∧ ∀ u, step t ≠ .next u

/-- R21: the halted flag is false at reset, is set by `halt` and by `ret` on an empty stack and by nothing else, and no step
clears it. -/
def Obligations.HaltedOnlyByHaltOrEmptyRet : Prop :=
  State.reset.run ≠ .halted ∧
  (∀ s t : State, step s = .next t →
    (t.run = .halted ↔ s.fetch = .ok .halt ∨ s.fetch = .ok .ret ∧ s.stack = [])) ∧
  ∀ s t : State, s.run = .halted → step s ≠ .next t

/-- R140 to R148: each cause is raised only by the instructions of its row of the table, under its condition. The causes
`addressRange` and `valueRange` are the spec's decisions D3 and D4 (logs 8, 4), and the order in which operands are checked is
D5 (log 5). -/
def Obligations.EachAbortHasItsOwnInstruction : Prop :=
  ∀ (s t : State) (c : Cause) (info : AbortInfo), s.params.opnum.wf = true → step s = .next t →
    t.run = .aborted c info →
    (c = .stackUnderflow → s.stack = [] ∧ ∃ d, s.fetch = .ok (.pop d)) ∧
    (c = .divideByZero → ∃ d a b, s.fetch = .ok (.mod d a b) ∧ s.val? b = some 0) ∧
    (c = .ioExhausted → s.input = [] ∧ s.inputEnd = .exhausted ∧ ∃ d, s.fetch = .ok (.in_ d)) ∧
    (c = .valueRange → 32767 < info.word.toNat ∧
      ((∃ d, s.fetch = .ok (.pop d) ∧ s.stack.head? = some info.word) ∨
       ∃ d a ea, s.fetch = .ok (.rmem d a) ∧ s.val? a = some ea ∧ Memory.readWord s.mem ea.toNat = info.word)) ∧
    (c = .destination → ∃ i v, s.fetch = .ok i ∧ i.operands.head? = some (.dest, .literal v)) ∧
    (c = .operand → ∃ i, s.fetch = .ok i ∧ ∃ p ∈ i.operands, p.2.valid = false) ∧
    (c = .addressRange → info.word.toNat = s.pc.toNat + info.index.val ∧ 32767 < info.word.toNat ∧
      (info.index.val = 0 ∧ info.opcode = 0 ∨ s.pc.toNat ≤ 32767 ∧ info.opcode = Memory.readWord s.mem s.pc.toNat ∧
        ∃ op, s.params.opnum.ofWord info.opcode = some op ∧ 1 ≤ info.index.val ∧ info.index.val ≤ op.operandCount) ∧
      ∀ i, s.fetch ≠ .ok i) ∧
    (c = .invalidOpcode → 21 < info.word.toNat ∧ Memory.readWord s.mem s.pc.toNat = info.word)

/-- R64: an instruction that neither redirects `pc` nor stops the machine advances `pc` by 1 plus its operand
count; so do `jt` and `jf` when they do not jump. -/
def Obligations.SequentialAdvanceIsOnePlusOperands : Prop :=
  (∀ (i : Instr) (s t : State), exec i s = .next t → s.run = .running → t.run = .running →
    i.opcode ∉ [Opcode.jmp, .jt, .jf, .call, .ret] →
    t.pc = s.pc + BitVec.ofNat 16 (1 + i.opcode.operandCount)) ∧
  ∀ (s t : State) (a b : Operand), s.run = .running → t.run = .running →
    (exec (.jt a b) s = .next t → s.val? a = some 0 → t.pc = s.pc + 3) ∧
    (exec (.jf a b) s = .next t → s.val? a ≠ some 0 → t.pc = s.pc + 3)

/-- R13: a register changes only as the destination operand of the instruction, which is operand 1. Of an instruction that
aborts this rests on decision D6 (log 6). -/
def Obligations.OnlyTheDestinationRegisterChanges : Prop :=
  ∀ (i : Instr) (s t : State) (r : RegIx), exec i s = .next t →
    i.operands.head? ≠ some (.dest, .register r) → t.getReg r = s.getReg r

/-- R13, R54: a register is read only as a value operand: changing one the instruction does not name as a value changes nothing
else in the outcome, and the register itself ends with what the instruction writes to it, where it is the destination of an
instruction that completes ("the destination register's old content is not read"), and as it was changed otherwise. Of an
instruction that aborts this rests on decision D6 (log 6). -/
def Obligations.OnlyValueOperandsReadRegisters : Prop :=
  ∀ (i : Instr) (s t : State) (r : RegIx) (v : Value), (Role.value, Operand.register r) ∉ i.operands →
    exec i s = .next t → ∃ t', exec i (s.setReg r v) = .next t' ∧ { t' with regs := t.regs } = t ∧
      (∀ q, q ≠ r → t'.getReg q = t.getReg q) ∧
      (s.run = .running → i.operands.head? = some (.dest, .register r) → t.run = .running → t'.getReg r = t.getReg r) ∧
      (s.run = .running → i.operands.head? ≠ some (.dest, .register r) ∨ t.run ≠ .running → t'.getReg r = v)

/-- R22, R35, R48: only `wmem` writes memory, and every word a step changes is at most 32767 afterwards. Of an instruction that
aborts this rests on decision D6 (log 6). -/
def Obligations.OnlyWmemWritesMemory : Prop :=
  (∀ (i : Instr) (s t : State), exec i s = .next t → i.opcode ≠ .wmem → t.mem = s.mem) ∧
  ∀ (s t : State) (a : Nat), step s = .next t →
    Memory.readWord t.mem a = Memory.readWord s.mem a ∨ (Memory.readWord t.mem a).toNat ≤ 32767

/-- R17, R18: only four instructions touch the stack; `push` and `call` add one word, `pop` and `ret` take the top, and an
instruction that aborts or halts leaves it. Of an instruction that aborts this rests on decision D6 (log 6). -/
def Obligations.OnlyFourInstructionsTouchTheStack : Prop :=
  ∀ (i : Instr) (s t : State), s.run = .running → exec i s = .next t →
    (i.opcode ∉ [Opcode.push, .call, .pop, .ret] → t.stack = s.stack) ∧
    (t.run ≠ .running → t.stack = s.stack) ∧
    (t.run = .running → i.opcode = .push ∨ i.opcode = .call → ∃ w, t.stack = w :: s.stack) ∧
    (t.run = .running → i.opcode = .pop ∨ i.opcode = .ret → ∃ w, s.stack = w :: t.stack)

/-- R27, R123, R125: only `out` emits, one byte at the end of the stream; only `in` consumes, at most one byte; bytes already
emitted stay. Of an instruction that aborts this rests on decision D6 (log 6). That emitted bytes stay is decision D25, and that
the sink always takes a byte D12 (log 9). -/
def Obligations.OnlyInAndOutTouchTheChannels : Prop :=
  ∀ (i : Instr) (s t : State), exec i s = .next t →
    (i.opcode ≠ .out → t.output = s.output) ∧
    (t.output = s.output ∨ ∃ b, t.output = s.output ++ [b]) ∧
    (i.opcode ≠ .in_ → t.input = s.input ∧ t.inputPos = s.inputPos) ∧ t.inputEnd = s.inputEnd ∧
    (t.inputPos = s.inputPos ∧ t.input = s.input ∨ t.inputPos = s.inputPos + 1 ∧ t.input = s.input.tail)

/-- R27, "the machine never reads it back": with any other output stream before it, a step does the same and emits the same. -/
def Obligations.OutputIsNeverReadBack : Prop :=
  ∀ s t : State, step s = .next t → ∃ emitted, t.output = s.output ++ emitted ∧
    ∀ o, step { s with output := o } = .next { t with output := o ++ emitted }

/-! ### Memory, load and reset -/

/-- R33: a read after a write to the same word gives the word written, all 16 bits, and every other word reads as before. -/
def Obligations.WordWriteThenWordRead : Prop :=
  ∀ (m : List Host.Cell) (a : Nat) (w : Word),
    Memory.readWord (Memory.writeWord m a w) a = w ∧
    ∀ a', a' ≠ a → Memory.readWord (Memory.writeWord m a w) a' = Memory.readWord m a'

/-- The canonical form (log 10): a word write inside memory keeps it, and two canonical memories that read equal at every
word are the same data. -/
def Obligations.CanonicalMemoryIsUnique : Prop :=
  (∀ (m : List Host.Cell) (a : Nat) (w : Word), a < 32768 → Memory.wf m = true → Memory.wf (Memory.writeWord m a w) = true) ∧
  ∀ m m' : List Host.Cell, Memory.wf m = true → Memory.wf m' = true →
    (∀ a, a < 32768 → Memory.readWord m a = Memory.readWord m' a) → m = m'

/-- R44: a store into the instruction stream is seen by the next fetch: after `wmem` onto a word of what follows it, the
words fetched next are the old ones with that word replaced. -/
def Obligations.StoreIsSeenByTheNextFetch : Prop :=
  ∀ (s t : State) (a b : Operand) (ea v : Value), s.val? a = some ea → s.val? b = some v →
    exec (.wmem a b) s = .next t → t.pc.toNat ≤ ea.toNat → ea.toNat < t.pc.toNat + 4 →
    ∃ w : Word, w.toNat = v.toNat ∧
      t.fetchWindow = (State.fetchWindow { s with pc := t.pc }).set (ea.toNat - t.pc.toNat) w

/-- R5, R28, R46, R47: a malformed image is rejected; any other is in memory little-endian from address 0, the rest of memory
is as `before` says (a memory filled with `MEM_FILL` holds it everywhere), the parameters and the input are those given, and
every other item of state has its reset value. (The default fill is decision D8, log 2; the rejection of too long an image, D9.)
That these memories are in canonical form is about the way the model holds memory, its own choice (log 10). -/
def Obligations.BootLoadsTheImage : Prop :=
  (∀ w : Word, Memory.wf (Memory.filled w) = true ∧ ∀ a, a < 32768 → Memory.readWord (Memory.filled w) a = w) ∧
  (∀ a, Memory.readWord [] a = Config.memFill) ∧
  ∀ (p : Params) (before : List Host.Cell) (image input : List Byte) (ending : InputEnd), Memory.wf before = true →
    (image.length % 2 = 1 → State.boot p before image input ending = .error .oddLength) ∧
    (image.length % 2 = 0 → 32768 < image.length / 2 → State.boot p before image input ending = .error .tooLong) ∧
    (image.length % 2 = 0 → image.length / 2 ≤ 32768 → ∃ s, State.boot p before image input ending = .ok s ∧
      (∀ i : RegIx, s.getReg i = 0) ∧ s.stack = [] ∧ s.pc = 0 ∧ s.run = .running ∧ s.output = [] ∧ s.input = input ∧
      s.inputEnd = ending ∧ s.inputPos = 0 ∧ s.params = p ∧ Memory.wf s.mem = true ∧
      (∀ i, i < image.length / 2 →
        (Memory.readWord s.mem i).toNat = (image.getD (2 * i) 0).toNat + 256 * (image.getD (2 * i + 1) 0).toNat) ∧
      ∀ i, image.length / 2 ≤ i → i < 32768 → Memory.readWord s.mem i = Memory.readWord before i)

/-- R28: the reset values of the state itself, and the status fields, all 0 (R24). The parameters are at their defaults (logs 1,
3). The empty image is the model's choice for `State.reset` (log 11), as is the supplied input, on which nothing here rests.
That the output is empty and the input at its first byte is decision D24, and the status fields are D19. -/
def Obligations.ResetValues : Prop :=
  (∀ i : RegIx, State.reset.getReg i = 0) ∧ State.reset.depth = 0 ∧ State.reset.pc = 0 ∧ State.reset.run = .running ∧
  State.reset.output = [] ∧ State.reset.inputPos = 0 ∧ State.reset.params = ⟨opcodeTable, none⟩ ∧
  State.reset.status = ⟨0, 0, 0, 0, 0, 0⟩

/-- R24, R140: the numeric status: run state 0, 1, 2 and the cause codes 1 to 8 (decision D7; that there is such a register,
D19, and what the report of an abort holds, D26). -/
def Obligations.StatusCodes : Prop :=
  (RunState.status .running).state = 0 ∧ (RunState.status .halted).state = 1 ∧
  (∀ c info, (RunState.status (.aborted c info)).state = 2 ∧ (RunState.status (.aborted c info)).cause = c.code ∧
    (RunState.status (.aborted c info)).infoPc = info.pc ∧ (RunState.status (.aborted c info)).infoOpcode = info.opcode ∧
    (RunState.status (.aborted c info)).infoIndex = info.index.val ∧
    (RunState.status (.aborted c info)).infoWord = info.word) ∧
  [Cause.invalidOpcode, .operand, .destination, .stackUnderflow, .divideByZero, .ioExhausted, .addressRange,
    .valueRange].map Cause.code = [1, 2, 3, 4, 5, 6, 7, 8]

/-! ### Laws across instructions -/

/-- R107: the laws of the arithmetic. `add`, `mult`, `and` and `or` give the same with their operands exchanged, and `mod` does
not; `add`, `mult`, `and` and `or` are associative, `mult` distributes over `add`, `and` and `or` are idempotent; the
identities; subtraction by adding the complement; double complement and De Morgan. -/
def Obligations.ArithmeticLaws : Prop :=
  (∀ (s : State) (i : RegIx) (a b : Operand), a.valid = true → b.valid = true →
    exec (.add (.register i) a b) s = exec (.add (.register i) b a) s ∧
    exec (.mult (.register i) a b) s = exec (.mult (.register i) b a) s ∧
    exec (.and (.register i) a b) s = exec (.and (.register i) b a) s ∧
    exec (.or (.register i) a b) s = exec (.or (.register i) b a) s) ∧
  (∀ x y : Value, Alu.add x y = Alu.add y x ∧ Alu.mult x y = Alu.mult y x ∧ Alu.and x y = Alu.and y x ∧
    Alu.or x y = Alu.or y x) ∧
  (∃ x y : Value, y ≠ 0 ∧ x ≠ 0 ∧ Alu.mod x y ≠ Alu.mod y x) ∧
  (∀ x y z : Value, Alu.add (Alu.add x y) z = Alu.add x (Alu.add y z) ∧
    Alu.mult (Alu.mult x y) z = Alu.mult x (Alu.mult y z) ∧
    Alu.and (Alu.and x y) z = Alu.and x (Alu.and y z) ∧ Alu.or (Alu.or x y) z = Alu.or x (Alu.or y z) ∧
    Alu.mult x (Alu.add y z) = Alu.add (Alu.mult x y) (Alu.mult x z)) ∧
  (∀ x k : Value, (Alu.add x (BitVec.ofNat 15 ((32768 - k.toNat) % 32768))).toNat = (x.toNat + (32768 - k.toNat)) % 32768 ∧
    Alu.add (Alu.add x (BitVec.ofNat 15 ((32768 - k.toNat) % 32768))) k = x) ∧
  ∀ x y : Value, Alu.add x 0 = x ∧ Alu.or x 0 = x ∧ Alu.mult x 1 = x ∧ Alu.and x 32767 = x ∧ Alu.and x x = x ∧
    Alu.or x x = x ∧ Alu.not (Alu.not x) = x ∧ Alu.not (Alu.and x y) = Alu.or (Alu.not x) (Alu.not y)

/-- R86, the property of `push v; pop r`: `r = v` and the stack as before. -/
def Obligations.PushThenPopGivesTheValue : Prop :=
  ∀ (s t : State) (i : RegIx) (a : Operand) (x : Value), s.val? a = some x → exec (.push a) s = .next t →
    exec (.pop (.register i)) t = .next { s with regs := s.regs.set i.val x, pc := s.pc + 4 }

/-- R114, the property of `call` and `ret`: whatever ran in between and balanced the stack, `ret` comes back to `pc + 2`. -/
def Obligations.CallThenRetComesBack : Prop :=
  ∀ (s t u : State) (a : Operand), s.run = .running → exec (.call a) s = .next t → t.run = .running →
    u.stack = t.stack → exec .ret u = .next { u with stack := s.stack, pc := s.pc + 2 }

/-- R111, the property of `wmem` and `rmem`: the value stored is the value read back, from an address operand that resolves
to the same number. -/
def Obligations.WmemThenRmemGivesTheValue : Prop :=
  ∀ (s t u : State) (i : RegIx) (a b c : Operand) (ea v : Value), s.val? a = some ea → s.val? b = some v →
    exec (.wmem a b) s = .next t → u.mem = t.mem → u.val? c = some ea →
    exec (.rmem (.register i) c) u = .next { u with regs := u.regs.set i.val v, pc := u.pc + 3 }
end

