-- ==== Sys2Proof/Laws/Decode.lean ====
section
/-! SUPPORT. The decoder's parts: opcode numbers and words, classification and the words of operands. -/

namespace Sys2Proof

theorem Opcode.operandCount_le (op : Opcode) : op.operandCount ≤ 3 := by
  cases op <;> decide

theorem Opcode.mem_opcodeTable (op : Opcode) : op ∈ opcodeTable.toList := by
  cases op <;> decide

theorem opcodeTable_wf : opcodeTable.wf = true := by decide

/-- A bijective numbering has every operation. -/
theorem OpNum.mem_of_wf {n : OpNum} (h : n.wf = true) (op : Opcode) : op ∈ n.toList := by
  have hd : n.toList.Nodup := of_decide_eq_true h
  have hs : n.toList.Subperm opcodeTable.toList := hd.subperm fun o _ => o.mem_opcodeTable
  exact (hs.perm_of_length_le (by simp)).mem_iff.2 op.mem_opcodeTable

/-- The number of an operation is at most 21. -/
theorem OpNum.num_toNat {n : OpNum} (h : n.wf = true) (op : Opcode) : (n.num op).toNat = n.toList.idxOf op := by
  have hlt := List.idxOf_lt_length_iff.2 (OpNum.mem_of_wf h op)
  simp only [Vector.length_toList] at hlt
  simp [OpNum.num]; omega

@[simp] theorem OpNum.ofWord_num {n : OpNum} (h : n.wf = true) (op : Opcode) : n.ofWord (n.num op) = some op := by
  rw [OpNum.ofWord, OpNum.num_toNat h,
    List.getElem?_eq_getElem (List.idxOf_lt_length_iff.2 (OpNum.mem_of_wf h op)), List.getElem_idxOf]

/-- A word that has an operation is that operation's number. -/
theorem OpNum.num_of_ofWord {n : OpNum} (h : n.wf = true) {w : Word} {op : Opcode} (ho : n.ofWord w = some op) :
    n.num op = w := by
  obtain ⟨hl, he⟩ := List.getElem?_eq_some_iff.1 ho
  apply BitVec.eq_of_toNat_eq
  have hd : n.toList.Nodup := of_decide_eq_true h
  rw [OpNum.num_toNat h, ← he, hd.idxOf_getElem]

/-- A word has an operation exactly when it is at most 21 (R58), whatever the numbering. -/
theorem OpNum.ofWord_none_iff {n : OpNum} {w : Word} : n.ofWord w = none ↔ 21 < w.toNat := by
  rw [OpNum.ofWord, List.getElem?_eq_none_iff, Vector.length_toList]
  omega

@[simp] theorem Operand.classify_word (o : Operand) : Operand.classify o.word = o := by
  cases o with
  | literal v =>
    have hv := v.isLt
    have hn : (v.setWidth 16).toNat = v.toNat := by simp; omega
    have hle : (v.setWidth 16).toNat ≤ 32767 := by omega
    simp only [Operand.word, Operand.classify, hle, if_true]
    congr 1
    apply BitVec.eq_of_toNat_eq
    simp
  | register i =>
    have hi := i.isLt
    have hn : (BitVec.ofNat 16 (32768 + i.val)).toNat = 32768 + i.val := by simp; omega
    simp only [Operand.word, Operand.classify, hn]
    rw [if_neg (by omega), if_pos (by omega)]
    refine congrArg Operand.register (Fin.ext ?_)
    rw [Fin.val_ofNat]; omega
  | invalid n =>
    have hi := n.isLt
    have hn : (BitVec.ofNat 16 (32776 + n.val)).toNat = 32776 + n.val := by simp; omega
    simp only [Operand.word, Operand.classify, hn]
    rw [if_neg (by omega), if_neg (by omega)]
    refine congrArg Operand.invalid (Fin.ext ?_)
    rw [Fin.val_ofNat]; omega

theorem Operand.classify_literal {w : Word} (h : w.toNat ≤ 32767) :
    Operand.classify w = .literal (w.setWidth 15) := by
  simp [Operand.classify, h]

theorem Operand.classify_register {w : Word} (h : 32768 ≤ w.toNat) (h' : w.toNat ≤ 32775) :
    Operand.classify w = .register (Fin.ofNat 8 (w.toNat - 32768)) := by
  rw [Operand.classify, if_neg (by omega), if_pos h']

theorem Operand.classify_invalid {w : Word} (h : 32776 ≤ w.toNat) :
    Operand.classify w = .invalid (Fin.ofNat 32760 (w.toNat - 32776)) := by
  rw [Operand.classify, if_neg (by omega), if_neg (by omega)]

/-- What an operation makes of its own words is an instruction of that operation. -/
@[simp] theorem assemble_opcode (op : Opcode) (w1 w2 w3 : Word) : (assemble op w1 w2 w3).opcode = op := by
  cases op <;> rfl

theorem Instr.operands_length (i : Instr) : i.operands.length = i.opcode.operandCount := by
  cases i <;> rfl

end Sys2Proof
end

