-- ==== Sys2Proof/Laws/State.lean ====
section
/-! SUPPORT. One lemma per field per update of the state, and the reads of a register after them. -/

namespace Sys2Proof.Machine

/-! ### `State.setReg` -/

@[simp] theorem State.setReg_regs (s : State) (i : RegIx) (v : Value) : (s.setReg i v).regs = s.regs.set i.val v := rfl
@[simp] theorem State.setReg_params (s : State) (i : RegIx) (v : Value) : (s.setReg i v).params = s.params := rfl
@[simp] theorem State.setReg_pc (s : State) (i : RegIx) (v : Value) : (s.setReg i v).pc = s.pc := rfl
@[simp] theorem State.setReg_stack (s : State) (i : RegIx) (v : Value) : (s.setReg i v).stack = s.stack := rfl
@[simp] theorem State.setReg_run (s : State) (i : RegIx) (v : Value) : (s.setReg i v).run = s.run := rfl
@[simp] theorem State.setReg_mem (s : State) (i : RegIx) (v : Value) : (s.setReg i v).mem = s.mem := rfl
@[simp] theorem State.setReg_input (s : State) (i : RegIx) (v : Value) : (s.setReg i v).input = s.input := rfl
@[simp] theorem State.setReg_inputEnd (s : State) (i : RegIx) (v : Value) : (s.setReg i v).inputEnd = s.inputEnd := rfl
@[simp] theorem State.setReg_inputPos (s : State) (i : RegIx) (v : Value) : (s.setReg i v).inputPos = s.inputPos := rfl
@[simp] theorem State.setReg_output (s : State) (i : RegIx) (v : Value) : (s.setReg i v).output = s.output := rfl

/-! ### `State.setPc` -/

@[simp] theorem State.setPc_regs (s : State) (t : Word) : (s.setPc t).regs = s.regs := rfl
@[simp] theorem State.setPc_params (s : State) (t : Word) : (s.setPc t).params = s.params := rfl
@[simp] theorem State.setPc_pc (s : State) (t : Word) : (s.setPc t).pc = t := rfl
@[simp] theorem State.setPc_stack (s : State) (t : Word) : (s.setPc t).stack = s.stack := rfl
@[simp] theorem State.setPc_run (s : State) (t : Word) : (s.setPc t).run = s.run := rfl
@[simp] theorem State.setPc_mem (s : State) (t : Word) : (s.setPc t).mem = s.mem := rfl
@[simp] theorem State.setPc_input (s : State) (t : Word) : (s.setPc t).input = s.input := rfl
@[simp] theorem State.setPc_inputEnd (s : State) (t : Word) : (s.setPc t).inputEnd = s.inputEnd := rfl
@[simp] theorem State.setPc_inputPos (s : State) (t : Word) : (s.setPc t).inputPos = s.inputPos := rfl
@[simp] theorem State.setPc_output (s : State) (t : Word) : (s.setPc t).output = s.output := rfl
@[simp] theorem State.setPc_getReg (s : State) (t : Word) (r : RegIx) : (s.setPc t).getReg r = s.getReg r := rfl

/-! ### `State.advance` -/

@[simp] theorem State.advance_regs (s : State) (op : Opcode) : (s.advance op).regs = s.regs := rfl
@[simp] theorem State.advance_params (s : State) (op : Opcode) : (s.advance op).params = s.params := rfl
@[simp] theorem State.advance_pc (s : State) (op : Opcode) : (s.advance op).pc = s.pc + BitVec.ofNat 16 op.length := rfl
@[simp] theorem State.advance_stack (s : State) (op : Opcode) : (s.advance op).stack = s.stack := rfl
@[simp] theorem State.advance_run (s : State) (op : Opcode) : (s.advance op).run = s.run := rfl
@[simp] theorem State.advance_mem (s : State) (op : Opcode) : (s.advance op).mem = s.mem := rfl
@[simp] theorem State.advance_input (s : State) (op : Opcode) : (s.advance op).input = s.input := rfl
@[simp] theorem State.advance_inputEnd (s : State) (op : Opcode) : (s.advance op).inputEnd = s.inputEnd := rfl
@[simp] theorem State.advance_inputPos (s : State) (op : Opcode) : (s.advance op).inputPos = s.inputPos := rfl
@[simp] theorem State.advance_output (s : State) (op : Opcode) : (s.advance op).output = s.output := rfl
@[simp] theorem State.advance_getReg (s : State) (op : Opcode) (r : RegIx) : (s.advance op).getReg r = s.getReg r := rfl

/-! ### `State.push` -/

@[simp] theorem State.push_regs (s : State) (w : Word) : (s.push w).regs = s.regs := rfl
@[simp] theorem State.push_params (s : State) (w : Word) : (s.push w).params = s.params := rfl
@[simp] theorem State.push_pc (s : State) (w : Word) : (s.push w).pc = s.pc := rfl
@[simp] theorem State.push_stack (s : State) (w : Word) : (s.push w).stack = w :: s.stack := rfl
@[simp] theorem State.push_run (s : State) (w : Word) : (s.push w).run = s.run := rfl
@[simp] theorem State.push_mem (s : State) (w : Word) : (s.push w).mem = s.mem := rfl
@[simp] theorem State.push_input (s : State) (w : Word) : (s.push w).input = s.input := rfl
@[simp] theorem State.push_inputEnd (s : State) (w : Word) : (s.push w).inputEnd = s.inputEnd := rfl
@[simp] theorem State.push_inputPos (s : State) (w : Word) : (s.push w).inputPos = s.inputPos := rfl
@[simp] theorem State.push_output (s : State) (w : Word) : (s.push w).output = s.output := rfl
@[simp] theorem State.push_getReg (s : State) (w : Word) (r : RegIx) : (s.push w).getReg r = s.getReg r := rfl

/-! ### `State.halt` -/

@[simp] theorem State.halt_regs (s : State) : (s.halt).regs = s.regs := rfl
@[simp] theorem State.halt_params (s : State) : (s.halt).params = s.params := rfl
@[simp] theorem State.halt_pc (s : State) : (s.halt).pc = s.pc := rfl
@[simp] theorem State.halt_stack (s : State) : (s.halt).stack = s.stack := rfl
@[simp] theorem State.halt_run (s : State) : (s.halt).run = .halted := rfl
@[simp] theorem State.halt_mem (s : State) : (s.halt).mem = s.mem := rfl
@[simp] theorem State.halt_input (s : State) : (s.halt).input = s.input := rfl
@[simp] theorem State.halt_inputEnd (s : State) : (s.halt).inputEnd = s.inputEnd := rfl
@[simp] theorem State.halt_inputPos (s : State) : (s.halt).inputPos = s.inputPos := rfl
@[simp] theorem State.halt_output (s : State) : (s.halt).output = s.output := rfl
@[simp] theorem State.halt_getReg (s : State) (r : RegIx) : (s.halt).getReg r = s.getReg r := rfl

/-! ### `State.abort` -/

@[simp] theorem State.abort_regs (s : State) (c : Cause) (info : AbortInfo) : (s.abort c info).regs = s.regs := rfl
@[simp] theorem State.abort_params (s : State) (c : Cause) (info : AbortInfo) : (s.abort c info).params = s.params := rfl
@[simp] theorem State.abort_pc (s : State) (c : Cause) (info : AbortInfo) : (s.abort c info).pc = s.pc := rfl
@[simp] theorem State.abort_stack (s : State) (c : Cause) (info : AbortInfo) : (s.abort c info).stack = s.stack := rfl
@[simp] theorem State.abort_run (s : State) (c : Cause) (info : AbortInfo) : (s.abort c info).run = .aborted c info := rfl
@[simp] theorem State.abort_mem (s : State) (c : Cause) (info : AbortInfo) : (s.abort c info).mem = s.mem := rfl
@[simp] theorem State.abort_input (s : State) (c : Cause) (info : AbortInfo) : (s.abort c info).input = s.input := rfl
@[simp] theorem State.abort_inputEnd (s : State) (c : Cause) (info : AbortInfo) : (s.abort c info).inputEnd = s.inputEnd := rfl
@[simp] theorem State.abort_inputPos (s : State) (c : Cause) (info : AbortInfo) : (s.abort c info).inputPos = s.inputPos := rfl
@[simp] theorem State.abort_output (s : State) (c : Cause) (info : AbortInfo) : (s.abort c info).output = s.output := rfl
@[simp] theorem State.abort_getReg (s : State) (c : Cause) (info : AbortInfo) (r : RegIx) : (s.abort c info).getReg r = s.getReg r := rfl

/-! ### `State.emit` -/

@[simp] theorem State.emit_regs (s : State) (b : Byte) : (s.emit b).regs = s.regs := rfl
@[simp] theorem State.emit_params (s : State) (b : Byte) : (s.emit b).params = s.params := rfl
@[simp] theorem State.emit_pc (s : State) (b : Byte) : (s.emit b).pc = s.pc := rfl
@[simp] theorem State.emit_stack (s : State) (b : Byte) : (s.emit b).stack = s.stack := rfl
@[simp] theorem State.emit_run (s : State) (b : Byte) : (s.emit b).run = s.run := rfl
@[simp] theorem State.emit_mem (s : State) (b : Byte) : (s.emit b).mem = s.mem := rfl
@[simp] theorem State.emit_input (s : State) (b : Byte) : (s.emit b).input = s.input := rfl
@[simp] theorem State.emit_inputEnd (s : State) (b : Byte) : (s.emit b).inputEnd = s.inputEnd := rfl
@[simp] theorem State.emit_inputPos (s : State) (b : Byte) : (s.emit b).inputPos = s.inputPos := rfl
@[simp] theorem State.emit_output (s : State) (b : Byte) : (s.emit b).output = s.output ++ [b] := rfl
@[simp] theorem State.emit_getReg (s : State) (b : Byte) (r : RegIx) : (s.emit b).getReg r = s.getReg r := rfl

/-! ### `State.placeAtPc` -/

@[simp] theorem State.placeAtPc_regs (s : State) (ws : List Word) : (s.placeAtPc ws).regs = s.regs := rfl
@[simp] theorem State.placeAtPc_params (s : State) (ws : List Word) : (s.placeAtPc ws).params = s.params := rfl
@[simp] theorem State.placeAtPc_pc (s : State) (ws : List Word) : (s.placeAtPc ws).pc = s.pc := rfl
@[simp] theorem State.placeAtPc_stack (s : State) (ws : List Word) : (s.placeAtPc ws).stack = s.stack := rfl
@[simp] theorem State.placeAtPc_run (s : State) (ws : List Word) : (s.placeAtPc ws).run = .running := rfl
@[simp] theorem State.placeAtPc_mem (s : State) (ws : List Word) : (s.placeAtPc ws).mem = Memory.placeWords s.mem s.pc.toNat ws := rfl
@[simp] theorem State.placeAtPc_input (s : State) (ws : List Word) : (s.placeAtPc ws).input = s.input := rfl
@[simp] theorem State.placeAtPc_inputEnd (s : State) (ws : List Word) : (s.placeAtPc ws).inputEnd = s.inputEnd := rfl
@[simp] theorem State.placeAtPc_inputPos (s : State) (ws : List Word) : (s.placeAtPc ws).inputPos = s.inputPos := rfl
@[simp] theorem State.placeAtPc_output (s : State) (ws : List Word) : (s.placeAtPc ws).output = s.output := rfl
@[simp] theorem State.placeAtPc_getReg (s : State) (ws : List Word) (r : RegIx) : (s.placeAtPc ws).getReg r = s.getReg r := rfl

/-! ### Reading a register back -/

@[simp] theorem State.setReg_getReg_same (s : State) (i : RegIx) (v : Value) : (s.setReg i v).getReg i = v := by
  simp [State.getReg]

theorem State.setReg_getReg_ne (s : State) (i r : RegIx) (v : Value) (h : r ≠ i) :
    (s.setReg i v).getReg r = s.getReg r := by
  have : i.val ≠ r.val := fun e => h (Fin.ext e.symm)
  simp [State.getReg, this]

theorem State.getReg_eq_of_regs {s t : State} (h : s.regs = t.regs) (r : RegIx) : s.getReg r = t.getReg r := by
  simp [State.getReg, h]

@[simp] theorem State.reset_getReg (i : RegIx) : State.reset.getReg i = 0 := by
  revert i; decide

/-- Raising an abort answers the next state in which only the run state differs (R151). -/
theorem State.raise_eq (s : State) (op : Opcode) (k : Fin 4) (w : Word) (c : Cause) :
    s.raise op k w c = .next (s.abort c { pc := s.pc, opcode := s.params.opnum.num op, index := k, word := w }) := rfl

/-! ### Room on the stack -/

/-- There is no room exactly when a finite `STACK_MAX` is reached. -/
theorem State.full_iff {s : State} : s.full = true ↔ ∃ m, s.params.stackMax = some m ∧ m ≤ s.stack.length := by
  unfold State.full State.depth
  cases s.params.stackMax <;> simp

theorem withRoom_of_not_full {s : State} {r : Result} (h : s.full = false) : withRoom s r = r := by
  simp [withRoom, h]

theorem withRoom_of_full {s : State} {r : Result} (h : s.full = true) : withRoom s r = .refused .stackFull := by
  simp [withRoom, h]

theorem withRoom_next {s t : State} {r : Result} (h : withRoom s r = .next t) : s.full = false ∧ r = .next t := by
  cases hf : s.full with
  | false => exact ⟨rfl, by rwa [withRoom_of_not_full hf] at h⟩
  | true => rw [withRoom_of_full hf] at h; cases h

end Sys2Proof.Machine
end

