-- ==== Sys2Proof/Laws/Operands.lean ====
section
/-! SUPPORT. Everything the operand operations can do, once: the equation when the operand is legal, and the cases when the
outcome is a next state. -/

namespace Sys2Proof.Machine

variable {op : Opcode} {k : Fin 4} {o : Operand} {s t : State}

@[simp] theorem State.val?_literal (s : State) (v : Value) : s.val? (.literal v) = some v := rfl
@[simp] theorem State.val?_register (s : State) (i : RegIx) : s.val? (.register i) = some (s.getReg i) := rfl
@[simp] theorem State.val?_invalid (s : State) (n : Fin 32760) : s.val? (.invalid n) = none := rfl

/-- Resolving looks at the registers only. -/
theorem State.val?_congr (h : s.regs = t.regs) (o : Operand) : s.val? o = t.val? o := by
  cases o <;> simp [State.getReg_eq_of_regs h]

theorem State.val?_eq_none_iff : s.val? o = none ↔ o.valid = false := by
  cases o <;> simp [Operand.valid]

theorem State.exists_val?_of_valid (s : State) (h : o.valid = true) : ∃ v, s.val? o = some v := by
  cases o with
  | literal v => exact ⟨v, rfl⟩
  | register i => exact ⟨_, rfl⟩
  | invalid n => simp [Operand.valid] at h

theorem State.valid_of_val? {v : Value} (h : s.val? o = some v) : o.valid = true := by
  cases o <;> simp_all [Operand.valid]

/-- With a value, `withVal` goes on. -/
theorem withVal_some {v : Value} {f : Value → Result} (h : s.val? o = some v) : withVal op k o s f = f v := by
  simp [withVal, h]

theorem withVal_none {f : Value → Result} (h : s.val? o = none) : withVal op k o s f = s.raise op k o.word .operand := by
  simp [withVal, h]

@[simp] theorem withDst_register (i : RegIx) (f : RegIx → Result) : withDst op k (.register i) s f = f i := rfl
@[simp] theorem withDst_literal (v : Value) (f : RegIx → Result) :
    withDst op k (.literal v) s f = s.raise op k (Operand.word (.literal v)) .destination := rfl
@[simp] theorem withDst_invalid (n : Fin 32760) (f : RegIx → Result) :
    withDst op k (.invalid n) s f = s.raise op k (Operand.word (.invalid n)) .operand := rfl

theorem withNarrow_of_le {w : Word} {f : Value → Result} (h : w.toNat ≤ 32767) :
    withNarrow op k w s f = f (w.setWidth 15) := by
  simp [withNarrow, h]

theorem withNarrow_of_gt {w : Word} {f : Value → Result} (h : 32767 < w.toNat) :
    withNarrow op k w s f = s.raise op k w .valueRange := by
  simp [withNarrow, Nat.not_le.2 h]

/-- `withVal` answers a next state through the operand's value or by `AbortOperand`. -/
theorem withVal_next {f : Value → Result} (h : withVal op k o s f = .next t) :
    (∃ v, s.val? o = some v ∧ f v = .next t) ∨
    (o.valid = false ∧ t = s.abort .operand { pc := s.pc, opcode := s.params.opnum.num op, index := k, word := o.word }) := by
  cases hv : s.val? o with
  | some v => exact .inl ⟨v, rfl, by rwa [withVal_some hv] at h⟩
  | none =>
    rw [withVal_none hv, State.raise_eq] at h
    exact .inr ⟨State.val?_eq_none_iff.1 hv, (Host.Outcome.next.inj h).symm⟩

/-- `withDst` answers a next state through the register named, or by `AbortDestination`, or by `AbortOperand`. -/
theorem withDst_next {f : RegIx → Result} (h : withDst op k o s f = .next t) :
    (∃ i, o = .register i ∧ f i = .next t) ∨
    (∃ v, o = .literal v ∧ t = s.abort .destination { pc := s.pc, opcode := s.params.opnum.num op, index := k, word := o.word }) ∨
    (o.valid = false ∧ t = s.abort .operand { pc := s.pc, opcode := s.params.opnum.num op, index := k, word := o.word }) := by
  cases o with
  | register i => exact .inl ⟨i, rfl, h⟩
  | literal v => exact .inr (.inl ⟨v, rfl, (Host.Outcome.next.inj h).symm⟩)
  | invalid n => exact .inr (.inr ⟨rfl, (Host.Outcome.next.inj h).symm⟩)

/-- `withNarrow` answers a next state with the word's low 15 bits when it fits, else by `AbortValueRange`. -/
theorem withNarrow_next {w : Word} {f : Value → Result} (h : withNarrow op k w s f = .next t) :
    (w.toNat ≤ 32767 ∧ f (w.setWidth 15) = .next t) ∨
    (32767 < w.toNat ∧ t = s.abort .valueRange { pc := s.pc, opcode := s.params.opnum.num op, index := k, word := w }) := by
  by_cases hw : w.toNat ≤ 32767
  · exact .inl ⟨hw, by rwa [withNarrow_of_le hw] at h⟩
  · rw [withNarrow_of_gt (by omega), State.raise_eq] at h
    exact .inr ⟨by omega, (Host.Outcome.next.inj h).symm⟩

theorem unary_some {g : Value → Value} {i : RegIx} {a : Operand} {x : Value} (h : s.val? a = some x) :
    unary op g (.register i) a s = .next ((s.setReg i (g x)).advance op) := by
  simp [unary, withVal_some h]

theorem binary_some {g : Value → Value → Value} {i : RegIx} {a b : Operand} {x y : Value} (ha : s.val? a = some x)
    (hb : s.val? b = some y) : binary op g (.register i) a b s = .next ((s.setReg i (g x y)).advance op) := by
  simp [binary, withVal_some ha, withVal_some hb]

theorem condJump_some {c : Value → Bool} {a b : Operand} {x y : Value} (ha : s.val? a = some x)
    (hb : s.val? b = some y) :
    condJump op c a b s = .next (if c x then s.setPc (valueWord y) else s.advance op) := by
  simp [condJump, withVal_some ha, withVal_some hb]

@[simp] theorem valueWord_toNat (v : Value) : (valueWord v).toNat = v.toNat := by
  have : v.toNat < 32768 := v.isLt
  simp [valueWord]; omega

@[simp] theorem byteValue_toNat (b : Byte) : (byteValue b).toNat = b.toNat := by
  have := b.isLt
  simp [byteValue]; omega

theorem valueWord_setWidth (v : Value) : (valueWord v).setWidth 15 = v := by
  have : v.toNat < 32768 := v.isLt
  apply BitVec.eq_of_toNat_eq
  simp; omega

/-- A word at most 32767 keeps its number as a value. -/
theorem setWidth_toNat_of_le {w : Word} (h : w.toNat ≤ 32767) : (w.setWidth 15).toNat = w.toNat := by
  simp; omega

end Sys2Proof.Machine
end

