-- ==== Sys2Proof/Laws/Effect.lean ====
section
/-! SUPPORT. Everything an instruction and a step can do, said once: `Effect` lists the ordinary outcomes, `Raises` the
aborts, and `exec_next` and `step_next` say there are no others. Later proofs split on these and do not unfold `exec`. -/

namespace Sys2Proof.Machine

/-- The ordinary outcomes of an instruction: its own rule's writes. -/
inductive Effect (s : State) : Instr → State → Prop where
  | halt : Effect s .halt s.halt
  | noop : Effect s .noop (s.advance .noop)
  | set {i a x} (ha : s.val? a = some x) : Effect s (.set (.register i) a) ((s.setReg i x).advance .set)
  | push {a x} (ha : s.val? a = some x) (hr : s.full = false) : Effect s (.push a) ((s.push (valueWord x)).advance .push)
  | pop {i w rest} (hs : s.stack = w :: rest) (hw : w.toNat ≤ 32767) :
      Effect s (.pop (.register i)) ((State.setReg { s with stack := rest } i (w.setWidth 15)).advance .pop)
  | eq {i a b x y} (ha : s.val? a = some x) (hb : s.val? b = some y) :
      Effect s (.eq (.register i) a b) ((s.setReg i (Alu.eq x y)).advance .eq)
  | gt {i a b x y} (ha : s.val? a = some x) (hb : s.val? b = some y) :
      Effect s (.gt (.register i) a b) ((s.setReg i (Alu.gt x y)).advance .gt)
  | jmp {a x} (ha : s.val? a = some x) : Effect s (.jmp a) (s.setPc (valueWord x))
  | jt {a b x y} (ha : s.val? a = some x) (hb : s.val? b = some y) :
      Effect s (.jt a b) (if nonZero x then s.setPc (valueWord y) else s.advance .jt)
  | jf {a b x y} (ha : s.val? a = some x) (hb : s.val? b = some y) :
      Effect s (.jf a b) (if !nonZero x then s.setPc (valueWord y) else s.advance .jf)
  | add {i a b x y} (ha : s.val? a = some x) (hb : s.val? b = some y) :
      Effect s (.add (.register i) a b) ((s.setReg i (Alu.add x y)).advance .add)
  | mult {i a b x y} (ha : s.val? a = some x) (hb : s.val? b = some y) :
      Effect s (.mult (.register i) a b) ((s.setReg i (Alu.mult x y)).advance .mult)
  | mod {i a b x y} (ha : s.val? a = some x) (hb : s.val? b = some y) (hy : y ≠ 0) :
      Effect s (.mod (.register i) a b) ((s.setReg i (Alu.mod x y)).advance .mod)
  | and {i a b x y} (ha : s.val? a = some x) (hb : s.val? b = some y) :
      Effect s (.and (.register i) a b) ((s.setReg i (Alu.and x y)).advance .and)
  | or {i a b x y} (ha : s.val? a = some x) (hb : s.val? b = some y) :
      Effect s (.or (.register i) a b) ((s.setReg i (Alu.or x y)).advance .or)
  | not {i a x} (ha : s.val? a = some x) : Effect s (.not (.register i) a) ((s.setReg i (Alu.not x)).advance .not)
  | rmem {i a ea} (ha : s.val? a = some ea) (hw : (Memory.readWord s.mem ea.toNat).toNat ≤ 32767) :
      Effect s (.rmem (.register i) a)
        ((s.setReg i ((Memory.readWord s.mem ea.toNat).setWidth 15)).advance .rmem)
  | wmem {a b ea v} (ha : s.val? a = some ea) (hb : s.val? b = some v) :
      Effect s (.wmem a b) (State.advance { s with mem := Memory.writeWord s.mem ea.toNat (valueWord v) } .wmem)
  | call {a x} (ha : s.val? a = some x) (hr : s.full = false) :
      Effect s (.call a) ((s.push (s.pc + 2)).setPc (valueWord x))
  | retHalt (hs : s.stack = []) : Effect s .ret s.halt
  | ret {w rest} (hs : s.stack = w :: rest) : Effect s .ret (State.setPc { s with stack := rest } w)
  | out {a x} (ha : s.val? a = some x) : Effect s (.out a) ((s.emit (lowByte (valueWord x))).advance .out)
  | inListed {i b rest} (hi : s.input = b :: rest) :
      Effect s (.in_ (.register i))
        ((State.setReg { s with input := rest, inputPos := s.inputPos + 1 } i (byteValue b)).advance .in_)
  | inEndless {i} (hi : s.input = []) (he : s.inputEnd = .endless) :
      Effect s (.in_ (.register i))
        ((State.setReg { s with inputPos := s.inputPos + 1 } i (byteValue (Config.inputByte s.inputPos))).advance .in_)

/-- The aborts of an instruction: cause, operand index, offending word (R142 to R148). -/
inductive Raises (s : State) : Instr → Cause → Fin 4 → Word → Prop where
  | operand {i r o k} (hm : (r, o) ∈ i.operands) (hv : o.valid = false) : Raises s i .operand k o.word
  | destination {i v} (hh : i.operands.head? = some (.dest, .literal v)) :
      Raises s i .destination 1 (Operand.literal v).word
  | underflow {i} (hs : s.stack = []) : Raises s (.pop (.register i)) .stackUnderflow 0 0
  | divide {i a b} (hb : s.val? b = some 0) : Raises s (.mod (.register i) a b) .divideByZero 3 b.word
  | ended {i} (hi : s.input = []) (he : s.inputEnd = .exhausted) : Raises s (.in_ (.register i)) .ioExhausted 0 0
  | widePop {i w rest} (hs : s.stack = w :: rest) (hw : 32767 < w.toNat) :
      Raises s (.pop (.register i)) .valueRange 1 w
  | wideRead {i a ea} (ha : s.val? a = some ea) (hw : 32767 < (Memory.readWord s.mem ea.toNat).toNat) :
      Raises s (.rmem (.register i) a) .valueRange 2 (Memory.readWord s.mem ea.toNat)

/-- The next states of an instruction: an ordinary outcome, or an abort that changes the run state alone. -/
def Outcomes (s : State) (i : Instr) (t : State) : Prop :=
  Effect s i t ∨ ∃ c k w, Raises s i c k w ∧
    t = s.abort c { pc := s.pc, opcode := s.params.opnum.num i.opcode, index := k, word := w }

theorem Outcomes.of_operand {s t : State} {i : Instr} {r : Role} {o : Operand} {k : Fin 4} (hm : (r, o) ∈ i.operands)
    (hv : o.valid = false)
    (ht : t = s.abort .operand { pc := s.pc, opcode := s.params.opnum.num i.opcode, index := k, word := o.word }) :
    Outcomes s i t :=
  .inr ⟨_, _, _, .operand hm hv, ht⟩

theorem Outcomes.of_destination {s t : State} {i : Instr} {v : Value}
    (hh : i.operands.head? = some (.dest, .literal v))
    (ht : t = s.abort .destination
      { pc := s.pc, opcode := s.params.opnum.num i.opcode, index := 1, word := (Operand.literal v).word }) : Outcomes s i t :=
  .inr ⟨_, _, _, .destination hh, ht⟩

/-- Format `DV` with a computed result. -/
theorem Outcomes.of_unary {s t : State} {i : Instr} {g : Value → Value} {d a : Operand}
    (ho : i.operands = [(.dest, d), (.value, a)]) (h : unary i.opcode g d a s = .next t)
    (hE : ∀ r x, d = .register r → s.val? a = some x → Effect s i ((s.setReg r (g x)).advance i.opcode)) :
    Outcomes s i t := by
  rcases withDst_next h with ⟨r, rfl, h⟩ | ⟨v, rfl, ht⟩ | ⟨hv, ht⟩
  · rcases withVal_next h with ⟨x, hx, h⟩ | ⟨hv, ht⟩
    · exact .inl (Host.Outcome.next.inj h ▸ hE r x rfl hx)
    · exact .of_operand (r := .value) (by simp [ho]) hv ht
  · exact .of_destination (by simp [ho]) ht
  · exact .of_operand (r := .dest) (by simp [ho]) hv ht

/-- Format `DVV` with a computed result. -/
theorem Outcomes.of_binary {s t : State} {i : Instr} {g : Value → Value → Value} {d a b : Operand}
    (ho : i.operands = [(.dest, d), (.value, a), (.value, b)]) (h : binary i.opcode g d a b s = .next t)
    (hE : ∀ r x y, d = .register r → s.val? a = some x → s.val? b = some y →
      Effect s i ((s.setReg r (g x y)).advance i.opcode)) :
    Outcomes s i t := by
  rcases withDst_next h with ⟨r, rfl, h⟩ | ⟨v, rfl, ht⟩ | ⟨hv, ht⟩
  · rcases withVal_next h with ⟨x, hx, h⟩ | ⟨hv, ht⟩
    · rcases withVal_next h with ⟨y, hy, h⟩ | ⟨hv, ht⟩
      · exact .inl (Host.Outcome.next.inj h ▸ hE r x y rfl hx hy)
      · exact .of_operand (r := .value) (o := b) (by simp [ho]) hv ht
    · exact .of_operand (r := .value) (o := a) (by simp [ho]) hv ht
  · exact .of_destination (by simp [ho]) ht
  · exact .of_operand (r := .dest) (by simp [ho]) hv ht

/-- Format `V`: the value, then whatever the instruction does with it. -/
theorem Outcomes.of_value {s t : State} {i : Instr} {a : Operand} {f : Value → State}
    (ho : i.operands = [(.value, a)]) (h : withVal i.opcode 1 a s (fun x => .next (f x)) = .next t)
    (hE : ∀ x, s.val? a = some x → Effect s i (f x)) : Outcomes s i t := by
  rcases withVal_next h with ⟨x, hx, h⟩ | ⟨hv, ht⟩
  · exact .inl (Host.Outcome.next.inj h ▸ hE x hx)
  · exact .of_operand (r := .value) (by simp [ho]) hv ht

/-- Format `V` with a push: the value, room on the stack, then whatever the instruction does. -/
theorem Outcomes.of_room {s t : State} {i : Instr} {a : Operand} {f : Value → State}
    (ho : i.operands = [(.value, a)]) (h : withVal i.opcode 1 a s (fun x => withRoom s (.next (f x))) = .next t)
    (hE : ∀ x, s.val? a = some x → s.full = false → Effect s i (f x)) : Outcomes s i t := by
  rcases withVal_next h with ⟨x, hx, h⟩ | ⟨hv, ht⟩
  · obtain ⟨hr, h⟩ := withRoom_next h
    exact .inl (Host.Outcome.next.inj h ▸ hE x hx hr)
  · exact .of_operand (r := .value) (by simp [ho]) hv ht

/-- Format `VV`: both values, then whatever the instruction does with them. -/
theorem Outcomes.of_values {s t : State} {i : Instr} {a b : Operand} {f : Value → Value → State}
    (ho : i.operands = [(.value, a), (.value, b)])
    (h : withVal i.opcode 1 a s (fun x => withVal i.opcode 2 b s fun y => .next (f x y)) = .next t)
    (hE : ∀ x y, s.val? a = some x → s.val? b = some y → Effect s i (f x y)) : Outcomes s i t := by
  rcases withVal_next h with ⟨x, hx, h⟩ | ⟨hv, ht⟩
  · rcases withVal_next h with ⟨y, hy, h⟩ | ⟨hv, ht⟩
    · exact .inl (Host.Outcome.next.inj h ▸ hE x y hx hy)
    · exact .of_operand (r := .value) (o := b) (by simp [ho]) hv ht
  · exact .of_operand (r := .value) (o := a) (by simp [ho]) hv ht

theorem execPop_outcomes {s t : State} {d : Operand} (h : execPop d s = .next t) : Outcomes s (.pop d) t := by
  rcases withDst_next h with ⟨r, rfl, h'⟩ | ⟨v, rfl, ht⟩ | ⟨hv, ht⟩
  · cases hs : s.stack with
    | nil =>
      simp only [hs, State.raise_eq] at h'
      exact .inr ⟨_, _, _, .underflow hs, (Host.Outcome.next.inj h').symm⟩
    | cons w rest =>
      simp only [hs] at h'
      rcases withNarrow_next h' with ⟨hw, h''⟩ | ⟨hw, ht⟩
      · exact .inl (Host.Outcome.next.inj h'' ▸ .pop hs hw)
      · exact .inr ⟨_, _, _, .widePop hs hw, ht⟩
  · exact .of_destination rfl ht
  · exact .of_operand (r := .dest) (by simp [Instr.operands]) hv ht

theorem execMod_outcomes {s t : State} {d a b : Operand} (h : execMod d a b s = .next t) :
    Outcomes s (.mod d a b) t := by
  rcases withDst_next h with ⟨r, rfl, h⟩ | ⟨v, rfl, ht⟩ | ⟨hv, ht⟩
  · rcases withVal_next h with ⟨x, hx, h⟩ | ⟨hv, ht⟩
    · rcases withVal_next h with ⟨y, hy, h⟩ | ⟨hv, ht⟩
      · by_cases h0 : y = 0
        · rw [if_pos h0, State.raise_eq] at h
          exact .inr ⟨_, _, _, .divide (h0 ▸ hy), (Host.Outcome.next.inj h).symm⟩
        · rw [if_neg h0] at h
          exact .inl (Host.Outcome.next.inj h ▸ .mod hx hy h0)
      · exact .of_operand (r := .value) (o := b) (by simp [Instr.operands]) hv ht
    · exact .of_operand (r := .value) (o := a) (by simp [Instr.operands]) hv ht
  · exact .of_destination rfl ht
  · exact .of_operand (r := .dest) (o := d) (by simp [Instr.operands]) hv ht

theorem execRmem_outcomes {s t : State} {d a : Operand} (h : execRmem d a s = .next t) :
    Outcomes s (.rmem d a) t := by
  rcases withDst_next h with ⟨r, rfl, h⟩ | ⟨v, rfl, ht⟩ | ⟨hv, ht⟩
  · rcases withVal_next h with ⟨ea, hea, h⟩ | ⟨hv, ht⟩
    · rcases withNarrow_next h with ⟨hw, h⟩ | ⟨hw, ht⟩
      · exact .inl (Host.Outcome.next.inj h ▸ .rmem hea hw)
      · exact .inr ⟨_, _, _, .wideRead hea hw, ht⟩
    · exact .of_operand (r := .value) (o := a) (by simp [Instr.operands]) hv ht
  · exact .of_destination rfl ht
  · exact .of_operand (r := .dest) (o := d) (by simp [Instr.operands]) hv ht

theorem execRet_outcomes {s t : State} (h : execRet s = .next t) : Outcomes s .ret t := by
  cases hs : s.stack with
  | nil =>
    simp only [execRet, hs] at h
    exact .inl (Host.Outcome.next.inj h ▸ .retHalt hs)
  | cons w rest =>
    simp only [execRet, hs] at h
    exact .inl (Host.Outcome.next.inj h ▸ .ret hs)

theorem execIn_outcomes {s t : State} {d : Operand} (h : execIn d s = .next t) : Outcomes s (.in_ d) t := by
  rcases withDst_next h with ⟨r, rfl, h'⟩ | ⟨v, rfl, ht⟩ | ⟨hv, ht⟩
  · cases hi : s.input with
    | cons b rest =>
      simp only [State.pullByte, hi] at h'
      exact .inl (Host.Outcome.next.inj h' ▸ .inListed hi)
    | nil =>
      cases he : s.inputEnd with
      | exhausted =>
        simp only [State.pullByte, hi, he, State.raise_eq] at h'
        exact .inr ⟨_, _, _, .ended hi he, (Host.Outcome.next.inj h').symm⟩
      | pending =>
        simp only [State.pullByte, hi, he] at h'
        cases h'
      | endless =>
        have hp : s.pullByte = .byte (Config.inputByte s.inputPos) { s with inputPos := s.inputPos + 1 } := by
          simp [State.pullByte, hi, he]
        simp only [hp] at h'
        exact .inl (Host.Outcome.next.inj h' ▸ .inEndless hi he)
  · exact .of_destination rfl ht
  · exact .of_operand (r := .dest) (by simp [Instr.operands]) hv ht

/-- Inversion of `exec`: a next state is an ordinary outcome of the instruction or one of its aborts. -/
theorem exec_next {i : Instr} {s t : State} (h : exec i s = .next t) : Outcomes s i t := by
  cases i with
  | halt => exact .inl (Host.Outcome.next.inj h ▸ .halt)
  | noop => exact .inl (Host.Outcome.next.inj h ▸ .noop)
  | set d a => exact .of_unary rfl h fun r x hd ha => hd ▸ .set ha
  | not d a => exact .of_unary rfl h fun r x hd ha => hd ▸ .not ha
  | eq d a b => exact .of_binary rfl h fun r x y hd ha hb => hd ▸ .eq ha hb
  | gt d a b => exact .of_binary rfl h fun r x y hd ha hb => hd ▸ .gt ha hb
  | add d a b => exact .of_binary rfl h fun r x y hd ha hb => hd ▸ .add ha hb
  | mult d a b => exact .of_binary rfl h fun r x y hd ha hb => hd ▸ .mult ha hb
  | and d a b => exact .of_binary rfl h fun r x y hd ha hb => hd ▸ .and ha hb
  | or d a b => exact .of_binary rfl h fun r x y hd ha hb => hd ▸ .or ha hb
  | push a => exact .of_room rfl h fun x ha hr => .push ha hr
  | jmp a => exact .of_value rfl h fun x ha => .jmp ha
  | call a => exact .of_room rfl h fun x ha hr => .call ha hr
  | out a => exact .of_value rfl h fun x ha => .out ha
  | jt a b => exact .of_values rfl h fun x y ha hb => .jt ha hb
  | jf a b => exact .of_values rfl h fun x y ha hb => .jf ha hb
  | wmem a b => exact .of_values rfl h fun x y ha hb => .wmem ha hb
  | pop d => exact execPop_outcomes h
  | mod d a b => exact execMod_outcomes h
  | rmem d a => exact execRmem_outcomes h
  | ret => exact execRet_outcomes h
  | in_ d => exact execIn_outcomes h

/-- How an instruction ends: in a next state, in the wait of `in`, or in the refusal of a push that a finite `STACK_MAX` leaves
no room for. -/
inductive Ends (s : State) (i : Instr) : Result → Prop where
  | next (t) : Ends s i (.next t)
  | waiting {r} (hi : i = .in_ (.register r)) (hs : s.sourceSilent = true) : Ends s i (.fault .waiting)
  | refused {a x} (hi : i = .push a ∨ i = .call a) (ha : s.val? a = some x) (hr : s.full = true) :
      Ends s i (.refused .stackFull)

section
variable {s : State} {i : Instr} {op : Opcode} {k : Fin 4} {o : Operand}

theorem Ends.withVal {f : Value → Result} (h : ∀ x, s.val? o = some x → Ends s i (f x)) :
    Ends s i (withVal op k o s f) := by
  cases ho : s.val? o with
  | none => rw [withVal_none ho]; exact .next _
  | some x => rw [withVal_some ho]; exact h x ho

theorem Ends.withDst {f : RegIx → Result} (h : ∀ r, o = .register r → Ends s i (f r)) :
    Ends s i (withDst op k o s f) := by
  cases o with
  | register r => exact h r rfl
  | literal v => exact .next _
  | invalid n => exact .next _

theorem Ends.withNarrow {w : Word} {f : Value → Result} (h : ∀ v, Ends s i (f v)) :
    Ends s i (withNarrow op k w s f) := by
  by_cases hw : w.toNat ≤ 32767
  · rw [withNarrow_of_le hw]; exact h _
  · rw [withNarrow_of_gt (by omega)]; exact .next _

theorem Ends.withRoom {a : Operand} {x : Value} {t : State} (hi : i = .push a ∨ i = .call a) (ha : s.val? a = some x) :
    Ends s i (withRoom s (.next t)) := by
  cases hr : s.full with
  | false => rw [withRoom_of_not_full hr]; exact .next _
  | true => rw [withRoom_of_full hr]; exact .refused hi ha hr

theorem Ends.unary {g : Value → Value} {d a : Operand} : Ends s i (unary op g d a s) :=
  .withDst fun _ _ => .withVal fun _ _ => .next _

theorem Ends.binary {g : Value → Value → Value} {d a b : Operand} : Ends s i (binary op g d a b s) :=
  .withDst fun _ _ => .withVal fun _ _ => .withVal fun _ _ => .next _

end

/-- Every instruction ends in one of these ways, and only `in`, `push` and `call` otherwise than in a next state. -/
theorem exec_ends (i : Instr) (s : State) : Ends s i (exec i s) := by
  cases i with
  | halt => exact .next _
  | noop => exact .next _
  | set | not => exact .unary
  | eq | gt | add | mult | and | or => exact .binary
  | jmp | out => exact .withVal fun _ _ => .next _
  | push => exact .withVal fun _ ha => .withRoom (.inl rfl) ha
  | call => exact .withVal fun _ ha => .withRoom (.inr rfl) ha
  | jt | jf | wmem => exact .withVal fun _ _ => .withVal fun _ _ => .next _
  | rmem => exact .withDst fun _ _ => .withVal fun _ _ => .withNarrow fun _ => .next _
  | mod =>
    refine .withDst fun _ _ => .withVal fun _ _ => .withVal fun y _ => ?_
    by_cases hy : y = 0
    · rw [if_pos hy]; exact .next _
    · rw [if_neg hy]; exact .next _
  | pop =>
    refine .withDst fun _ _ => ?_
    split
    · exact .next _
    · exact .withNarrow fun _ => .next _
  | ret =>
    simp only [exec, execRet]
    split <;> exact .next _
  | in_ d =>
    refine .withDst fun r hd => ?_
    split
    · exact .next _
    · exact .next _
    · rename_i h
      refine .waiting (r := r) (by rw [hd]) ?_
      cases hi : s.input with
      | cons b rest => simp [State.pullByte, hi] at h
      | nil => cases he : s.inputEnd <;> simp_all [State.pullByte, State.sourceSilent]

/-- The address a fetch reports is that of the opcode word. -/
theorem State.fetchAbort_pc (s : State) (e : DecodeError) : (s.fetchAbort e).2.pc = s.pc := by
  cases e <;> rfl

/-- Inversion of `step`: the machine was running, and either executed what it fetched or took the abort of its fetch. -/
theorem step_next {s t : State} (h : step s = .next t) :
    s.run = .running ∧
    ((∃ i, s.fetch = .ok i ∧ exec i s = .next t) ∨
     ∃ e, decode s.params.opnum s.fetchWindow = .error e ∧ s.fetch = .error (s.fetchAbort e) ∧
       t = s.abort (s.fetchAbort e).1 (s.fetchAbort e).2) := by
  cases hr : s.run with
  | halted => simp [step, hr] at h
  | aborted c info => simp [step, hr] at h
  | running =>
    refine ⟨rfl, ?_⟩
    cases hd : decode s.params.opnum s.fetchWindow with
    | ok i =>
      have hf : s.fetch = .ok i := by simp [State.fetch, hd]
      simp only [step, hr, hf] at h
      exact .inl ⟨i, hf, h⟩
    | error e =>
      have hf : s.fetch = .error (s.fetchAbort e) := by simp [State.fetch, hd]
      simp only [step, hr, hf] at h
      exact .inr ⟨e, rfl, hf, (Host.Outcome.next.inj h).symm⟩

end Sys2Proof.Machine
end

