-- ==== Sys2Proof/Laws/Fetch.lean ====
section
/-! SUPPORT. What a fetch sees: the words from `pc` on that lie in memory, at most four. -/

namespace Sys2Proof.Machine

/-- The window as one map over the addresses it covers. -/
theorem State.fetchWindow_eq (s : State) :
    s.fetchWindow =
      (List.range (min 4 (32768 - s.pc.toNat))).map fun k => Memory.readWord s.mem (s.pc.toNat + k) := by
  have key : ([0, 1, 2, 3].filter fun k => decide (s.pc.toNat + k < Config.memWords)) =
      List.range (min 4 (32768 - s.pc.toNat)) := by
    have hm : Config.memWords = 32768 := rfl
    simp only [hm]
    generalize s.pc.toNat = p
    rcases (by omega : p ≤ 32764 ∨ p = 32765 ∨ p = 32766 ∨ p = 32767 ∨ 32768 ≤ p) with h | rfl | rfl | rfl | h
    · have e : min 4 (32768 - p) = 4 := by omega
      rw [e]
      simp [List.range_succ, show p < 32768 by omega, show p + 1 < 32768 by omega, show p + 2 < 32768 by omega,
        show p + 3 < 32768 by omega]
    · decide
    · decide
    · decide
    · have e : min 4 (32768 - p) = 0 := by omega
      rw [e]
      simp [show ¬p < 32768 by omega, show ¬p + 1 < 32768 by omega, show ¬p + 2 < 32768 by omega,
        show ¬p + 3 < 32768 by omega]
  rw [State.fetchWindow, key]

@[simp] theorem State.fetchWindow_length (s : State) : s.fetchWindow.length = min 4 (32768 - s.pc.toNat) := by
  simp [State.fetchWindow_eq]

/-- Word `k` of the window is the word at `pc + k`. -/
theorem State.fetchWindow_getElem? (s : State) (k : Nat) :
    s.fetchWindow[k]? =
      if k < min 4 (32768 - s.pc.toNat) then some (Memory.readWord s.mem (s.pc.toNat + k)) else none := by
  rw [State.fetchWindow_eq, List.getElem?_map]
  by_cases h : k < min 4 (32768 - s.pc.toNat)
  · rw [List.getElem?_range h, if_pos h]; rfl
  · rw [if_neg h, List.getElem?_eq_none (by simp only [List.length_range]; omega)]; rfl

/-- With `pc` in memory the window begins with the opcode word. -/
theorem State.fetchWindow_cons (s : State) (h : s.pc.toNat ≤ 32767) :
    ∃ ws, s.fetchWindow = Memory.readWord s.mem s.pc.toNat :: ws ∧ ws.length = min 4 (32768 - s.pc.toNat) - 1 := by
  have h0 := s.fetchWindow_getElem? 0
  rw [if_pos (by omega)] at h0
  have hl := s.fetchWindow_length
  cases hw : s.fetchWindow with
  | nil => rw [hw] at hl; simp only [List.length_nil] at hl; omega
  | cons w ws =>
    rw [hw] at h0 hl
    simp only [List.getElem?_cons_zero, Option.some.injEq, Nat.add_zero] at h0
    exact ⟨ws, by rw [h0], by simp only [List.length_cons] at hl; omega⟩

/-- With `pc` above 32767 there is nothing to fetch (R34). -/
theorem State.fetchWindow_nil (s : State) (h : 32767 < s.pc.toNat) : s.fetchWindow = [] := by
  rw [State.fetchWindow_eq, show min 4 (32768 - s.pc.toNat) = 0 by omega]; rfl

/-- What is decoded has its words inside the list. -/
theorem decode_ok {n : OpNum} {ws : List Word} {i : Instr} (h : decode n ws = .ok i) :
    ∃ w rest, ws = w :: rest ∧ n.ofWord w = some i.opcode ∧ i.opcode.operandCount ≤ rest.length ∧
      i = assemble i.opcode (rest.getD 0 0) (rest.getD 1 0) (rest.getD 2 0) := by
  cases ws with
  | nil => simp [decode] at h
  | cons w rest =>
    cases ho : n.ofWord w with
    | none => simp [decode, ho] at h
    | some op =>
      by_cases hl : rest.length < op.operandCount
      · simp [decode, ho, hl] at h
      · simp only [decode, ho, hl, if_false, Except.ok.injEq] at h
        subst h
        simp only [assemble_opcode]
        exact ⟨w, rest, rfl, ho, Nat.not_lt.1 hl, rfl⟩

/-- What was fetched is what the window decodes to. -/
theorem State.decode_of_fetch {s : State} {i : Instr} (h : s.fetch = .ok i) :
    decode s.params.opnum s.fetchWindow = .ok i := by
  cases hd : decode s.params.opnum s.fetchWindow with
  | ok j => simpa [State.fetch, hd] using h
  | error e => simp [State.fetch, hd] at h

/-- An instruction that was fetched lies inside memory with all its words (R16, R34). -/
theorem State.fetch_inside {s : State} {i : Instr} (h : s.fetch = .ok i) :
    s.pc.toNat + i.opcode.length ≤ 32768 := by
  have hd := State.decode_of_fetch h
  obtain ⟨w, rest, hw, -, hc, -⟩ := decode_ok hd
  have hl := s.fetchWindow_length
  rw [hw, List.length_cons] at hl
  simp only [Opcode.length]
  omega

end Sys2Proof.Machine
end

