-- ==== Sys2Proof/Laws/Memory.lean ====
section
/-! SUPPORT. What the memory operations do: a read after a write, the canonical form kept, placed words and the words of an
image read back. -/

namespace Sys2Proof.Machine

/-! ### Byte cells -/

theorem Memory.readByte_insert_same (m : List Host.Cell) (n : Nat) (b : Byte) (h : ∀ e ∈ m, e.1 ≠ n) :
    Memory.readByte (Memory.insertCell n b m) n = b := by
  induction m with
  | nil => simp [Memory.insertCell, Memory.readByte]
  | cons e rest ih =>
    obtain ⟨k, c⟩ := e
    have hk : k ≠ n := h (k, c) (by simp)
    by_cases hlt : n < k
    · simp [Memory.insertCell, hlt, Memory.readByte]
    · simp only [Memory.insertCell, hlt, if_false, Memory.readByte, hk]
      exact ih fun e he => h e (by simp [he])

theorem Memory.readByte_insert_ne (m : List Host.Cell) (n j : Nat) (b : Byte) (h : j ≠ n) :
    Memory.readByte (Memory.insertCell n b m) j = Memory.readByte m j := by
  induction m with
  | nil => simp [Memory.insertCell, Memory.readByte, h.symm]
  | cons e rest ih =>
    obtain ⟨k, c⟩ := e
    by_cases hlt : n < k
    · simp [Memory.insertCell, hlt, Memory.readByte, h.symm]
    · simp only [Memory.insertCell, hlt, if_false, Memory.readByte, ih]

theorem Memory.readByte_erase_same (m : List Host.Cell) (n : Nat) :
    Memory.readByte (Memory.eraseCell m n) n = Memory.fill n := by
  induction m with
  | nil => rfl
  | cons e rest ih =>
    obtain ⟨k, c⟩ := e
    by_cases hk : k = n
    · simpa [Memory.eraseCell, hk] using ih
    · simpa [Memory.eraseCell, hk, Memory.readByte] using ih

theorem Memory.readByte_erase_ne (m : List Host.Cell) (n j : Nat) (h : j ≠ n) :
    Memory.readByte (Memory.eraseCell m n) j = Memory.readByte m j := by
  induction m with
  | nil => rfl
  | cons e rest ih =>
    obtain ⟨k, c⟩ := e
    by_cases hk : k = n
    · subst hk
      simpa [Memory.eraseCell, Memory.readByte, h.symm] using ih
    · by_cases hj : k = j
      · subst hj
        simp [Memory.eraseCell, hk, Memory.readByte]
      · simpa [Memory.eraseCell, hk, Memory.readByte, hj] using ih

theorem Memory.mem_erase {m : List Host.Cell} {n : Nat} {e : Host.Cell} (h : e ∈ Memory.eraseCell m n) :
    e ∈ m ∧ e.1 ≠ n := by
  simpa [Memory.eraseCell] using h

/-- A byte reads as what was last written to it. -/
@[simp] theorem Memory.readByte_writeByte_same (m : List Host.Cell) (n : Nat) (b : Byte) :
    Memory.readByte (Memory.writeByte m n b) n = b := by
  by_cases hb : b = Memory.fill n
  · simp [Memory.writeByte, hb, Memory.readByte_erase_same]
  · simp only [Memory.writeByte, hb, if_false]
    exact Memory.readByte_insert_same _ _ _ fun e he => (Memory.mem_erase he).2

/-- A byte write leaves every other byte alone. -/
theorem Memory.readByte_writeByte_ne (m : List Host.Cell) (n j : Nat) (b : Byte) (h : j ≠ n) :
    Memory.readByte (Memory.writeByte m n b) j = Memory.readByte m j := by
  by_cases hb : b = Memory.fill n
  · simp [Memory.writeByte, hb, Memory.readByte_erase_ne _ _ _ h]
  · simp [Memory.writeByte, hb, Memory.readByte_insert_ne _ _ _ _ h, Memory.readByte_erase_ne _ _ _ h]

/-- A word write leaves every byte outside the word alone. -/
theorem Memory.readByte_writeWord_ne (m : List Host.Cell) (a j : Nat) (w : Word) (h0 : j ≠ 2 * a) (h1 : j ≠ 2 * a + 1) :
    Memory.readByte (Memory.writeWord m a w) j = Memory.readByte m j := by
  simp [Memory.writeWord, Memory.readByte_writeByte_ne, h0, h1]

@[simp] theorem Memory.readByte_writeWord_low (m : List Host.Cell) (a : Nat) (w : Word) :
    Memory.readByte (Memory.writeWord m a w) (2 * a) = lowByte w := by
  simp [Memory.writeWord, Memory.readByte_writeByte_ne]

@[simp] theorem Memory.readByte_writeWord_high (m : List Host.Cell) (a : Nat) (w : Word) :
    Memory.readByte (Memory.writeWord m a w) (2 * a + 1) = highByte w := by
  simp [Memory.writeWord]

/-! ### Words of bytes -/

@[simp] theorem wordOfBytes_low_high (w : Word) : wordOfBytes (lowByte w) (highByte w) = w := by
  apply BitVec.eq_of_getLsbD_eq
  intro j hj
  simp only [wordOfBytes, lowByte, highByte, BitVec.getLsbD_append, BitVec.getLsbD_setWidth,
    BitVec.getLsbD_ushiftRight]
  by_cases h : j < 8
  · simp [h]
  · have : j - 8 < 8 := by omega
    have e : 8 + (j - 8) = j := by omega
    simp [h, this, e]

@[simp] theorem wordOfBytes_toNat (lo hi : Byte) : (wordOfBytes lo hi).toNat = lo.toNat + 256 * hi.toNat := by
  rw [wordOfBytes, BitVec.toNat_append, Nat.shiftLeft_eq, Nat.mul_comm, ← Nat.two_pow_add_eq_or_of_lt lo.isLt]
  omega

/-! ### The canonical form -/

theorem Memory.wf_cons {k : Nat} {b : Byte} {rest : List Host.Cell} :
    Memory.wf ((k, b) :: rest) = true ↔
      k < 2 * Config.memWords ∧ b ≠ Memory.fill k ∧ (∀ e ∈ rest, k < e.1) ∧ Memory.wf rest = true := by
  simp [Memory.wf, and_assoc]

theorem Memory.wf_erase {m : List Host.Cell} (n : Nat) (h : Memory.wf m = true) :
    Memory.wf (Memory.eraseCell m n) = true := by
  induction m with
  | nil => rfl
  | cons e rest ih =>
    obtain ⟨k, c⟩ := e
    obtain ⟨hk, hc, hall, hrest⟩ := Memory.wf_cons.1 h
    by_cases hkn : k = n
    · simpa [Memory.eraseCell, hkn] using ih hrest
    · have : Memory.eraseCell ((k, c) :: rest) n = (k, c) :: Memory.eraseCell rest n := by
        simp [Memory.eraseCell, hkn]
      rw [this]
      exact Memory.wf_cons.2 ⟨hk, hc, fun e he => hall e (Memory.mem_erase he).1, ih hrest⟩

theorem Memory.mem_insert {m : List Host.Cell} {n : Nat} {b : Byte} {e : Host.Cell}
    (h : e ∈ Memory.insertCell n b m) : e = (n, b) ∨ e ∈ m := by
  induction m with
  | nil => simpa [Memory.insertCell] using h
  | cons c rest ih =>
    obtain ⟨k, c⟩ := c
    by_cases hlt : n < k
    · simpa [Memory.insertCell, hlt] using h
    · simp only [Memory.insertCell, hlt, if_false, List.mem_cons] at h
      rcases h with h | h
      · simp [h]
      · rcases ih h with h | h <;> simp [h]

theorem Memory.wf_insert {m : List Host.Cell} {n : Nat} {b : Byte} (h : Memory.wf m = true)
    (hn : n < 2 * Config.memWords) (hb : b ≠ Memory.fill n) (hne : ∀ e ∈ m, e.1 ≠ n) :
    Memory.wf (Memory.insertCell n b m) = true := by
  induction m with
  | nil => exact Memory.wf_cons.2 ⟨hn, hb, by simp, rfl⟩
  | cons e rest ih =>
    obtain ⟨k, c⟩ := e
    obtain ⟨hk, hc, hall, hrest⟩ := Memory.wf_cons.1 h
    have hkn : k ≠ n := hne (k, c) (by simp)
    by_cases hlt : n < k
    · simp only [Memory.insertCell, hlt, if_true]
      refine Memory.wf_cons.2 ⟨hn, hb, fun e he => ?_, h⟩
      rcases List.mem_cons.1 he with rfl | he
      · exact hlt
      · exact lt_trans hlt (hall e he)
    · simp only [Memory.insertCell, hlt, if_false]
      refine Memory.wf_cons.2 ⟨hk, hc, fun e he => ?_, ih hrest fun e he => hne e (by simp [he])⟩
      rcases Memory.mem_insert he with rfl | he
      · simp only; omega
      · exact hall e he

/-- A byte write inside memory keeps the canonical form. -/
theorem Memory.wf_writeByte {m : List Host.Cell} {n : Nat} (b : Byte) (h : Memory.wf m = true)
    (hn : n < 2 * Config.memWords) : Memory.wf (Memory.writeByte m n b) = true := by
  by_cases hb : b = Memory.fill n
  · simpa [Memory.writeByte, hb] using Memory.wf_erase n h
  · simp only [Memory.writeByte, hb, if_false]
    exact Memory.wf_insert (Memory.wf_erase n h) hn hb fun e he => (Memory.mem_erase he).2

/-- A value used as an address names a word of memory (R35). -/
theorem Value.lt_memWords (v : Value) : v.toNat < Config.memWords := v.isLt

/-- A canonical memory lists no cell below its first. -/
theorem Memory.readByte_of_lt {m : List Host.Cell} {n : Nat} (h : ∀ e ∈ m, n < e.1) :
    Memory.readByte m n = Memory.fill n := by
  induction m with
  | nil => rfl
  | cons e rest ih =>
    obtain ⟨k, c⟩ := e
    have hk : n < k := h (k, c) (by simp)
    simp only [Memory.readByte, Nat.ne_of_gt hk, if_false]
    exact ih fun e he => h e (by simp [he])

/-- A word reads as what was last written to it. -/
@[simp] theorem Memory.readWord_writeWord_same (m : List Host.Cell) (a : Nat) (w : Word) :
    Memory.readWord (Memory.writeWord m a w) a = w := by
  simp [Memory.readWord]

/-- A word write leaves every other word alone. -/
theorem Memory.readWord_writeWord_ne (m : List Host.Cell) (a j : Nat) (w : Word) (h : j ≠ a) :
    Memory.readWord (Memory.writeWord m a w) j = Memory.readWord m j := by
  rw [Memory.readWord, Memory.readByte_writeWord_ne _ _ _ _ (by omega) (by omega),
    Memory.readByte_writeWord_ne _ _ _ _ (by omega) (by omega), Memory.readWord]

/-- A word write inside memory keeps the canonical form. -/
theorem Memory.wf_writeWord {m : List Host.Cell} {a : Nat} (w : Word) (h : Memory.wf m = true)
    (ha : a < Config.memWords) : Memory.wf (Memory.writeWord m a w) = true :=
  Memory.wf_writeByte _ (Memory.wf_writeByte _ h (by omega)) (by omega)

/-! ### Placing words -/

/-- Placing words keeps the canonical form. -/
theorem Memory.wf_placeWords {m : List Host.Cell} {a : Nat} {ws : List Word} (h : Memory.wf m = true) :
    Memory.wf (Memory.placeWords m a ws) = true := by
  induction ws generalizing m a with
  | nil => exact h
  | cons w ws ih =>
    simp only [Memory.placeWords]
    split
    · exact ih (Memory.wf_writeWord w h ‹_›)
    · exact ih h

/-- After placing words, an address inside memory holds its word where one was placed, and is as before elsewhere. -/
theorem Memory.readWord_placeWords (m : List Host.Cell) (a j : Nat) (ws : List Word) (hj : j < Config.memWords) :
    Memory.readWord (Memory.placeWords m a ws) j =
      if a ≤ j ∧ j < a + ws.length then ws.getD (j - a) 0 else Memory.readWord m j := by
  induction ws generalizing m a with
  | nil => rw [if_neg (by simp only [List.length_nil]; omega)]; rfl
  | cons w ws ih =>
    have key : Memory.readWord (if a < Config.memWords then Memory.writeWord m a w else m) j =
        if j = a then w else Memory.readWord m j := by
      by_cases e : j = a
      · subst e; simp [hj]
      · rw [if_neg e]
        split
        · exact Memory.readWord_writeWord_ne _ _ _ _ e
        · rfl
    rw [Memory.placeWords, ih, key]
    by_cases e : j = a
    · subst e
      rw [if_neg (by omega), if_pos rfl, if_pos (by simp only [List.length_cons]; omega), Nat.sub_self, List.getD_cons_zero]
    · by_cases hin : a + 1 ≤ j ∧ j < a + 1 + ws.length
      · have e' : j - a = (j - (a + 1)) + 1 := by omega
        rw [if_pos hin, if_pos (by simp only [List.length_cons]; omega), e', List.getD_cons_succ]
      · rw [if_neg hin, if_neg e, if_neg (by simp only [List.length_cons]; omega)]

/-- A filled memory is canonical. -/
theorem Memory.wf_filled (w : Word) : Memory.wf (Memory.filled w) = true := Memory.wf_placeWords rfl

/-- A filled memory holds the fill everywhere. -/
theorem Memory.readWord_filled (w : Word) {a : Nat} (h : a < Config.memWords) :
    Memory.readWord (Memory.filled w) a = w := by
  rw [Memory.filled, Memory.readWord_placeWords _ _ _ _ h, if_pos (by simpa using h)]
  simp [List.getD_eq_getElem?_getD, h]

/-! ### The words of an image -/

theorem wordsOfBytes_length (bs : List Byte) : (wordsOfBytes bs).length = bs.length / 2 := by
  induction bs using wordsOfBytes.induct with
  | case1 lo hi rest ih => simp [wordsOfBytes, ih]; omega
  | case2 b => simp [wordsOfBytes]
  | case3 => rfl

/-- Word `i` of an image is made of its bytes `2i` and `2i + 1` (R46). -/
theorem wordsOfBytes_getD (bs : List Byte) (i : Nat) (h : i < bs.length / 2) :
    (wordsOfBytes bs).getD i 0 = wordOfBytes (bs.getD (2 * i) 0) (bs.getD (2 * i + 1) 0) := by
  induction bs using wordsOfBytes.induct generalizing i with
  | case1 lo hi rest ih =>
    cases i with
    | zero => simp [wordsOfBytes]
    | succ i =>
      have := ih i (by simp only [List.length_cons] at h; omega)
      simp only [wordsOfBytes, List.getD_cons_succ, this, show 2 * (i + 1) = 2 * i + 1 + 1 by omega]
  | case2 b => simp at h
  | case3 => simp at h

end Sys2Proof.Machine
end

