-- ==== Sys2Proof/Laws/PerInstr.lean ====
section
/-! SUPPORT. A property of every instruction as syntax, by constructor: its encoding begins with its operation's number and
is one word longer than the operand words (spec/30_encoding.md R50, R57). -/

/-- Under every numbering, the encoding starts with the operation's number and has one more word per operand. -/
def Sys2Proof.Laws.Shape.Statement (i : Sys2Proof.Instr) : Prop :=
  ∀ n : Sys2Proof.OpNum, (Sys2Proof.encode n i).head? = some (n.num i.opcode) ∧
    (Sys2Proof.encode n i).length = 1 + i.opcode.operandCount

theorem Sys2Proof.Laws.Shape.halt : Sys2Proof.Laws.Shape.Statement .halt := fun _ => ⟨rfl, rfl⟩

theorem Sys2Proof.Laws.Shape.set (d a : Sys2Proof.Operand) : Sys2Proof.Laws.Shape.Statement (.set d a) := fun _ => ⟨rfl, rfl⟩

theorem Sys2Proof.Laws.Shape.push (a : Sys2Proof.Operand) : Sys2Proof.Laws.Shape.Statement (.push a) := fun _ => ⟨rfl, rfl⟩

theorem Sys2Proof.Laws.Shape.pop (d : Sys2Proof.Operand) : Sys2Proof.Laws.Shape.Statement (.pop d) := fun _ => ⟨rfl, rfl⟩

theorem Sys2Proof.Laws.Shape.eq (d a b : Sys2Proof.Operand) : Sys2Proof.Laws.Shape.Statement (.eq d a b) := fun _ => ⟨rfl, rfl⟩

theorem Sys2Proof.Laws.Shape.gt (d a b : Sys2Proof.Operand) : Sys2Proof.Laws.Shape.Statement (.gt d a b) := fun _ => ⟨rfl, rfl⟩

theorem Sys2Proof.Laws.Shape.jmp (a : Sys2Proof.Operand) : Sys2Proof.Laws.Shape.Statement (.jmp a) := fun _ => ⟨rfl, rfl⟩

theorem Sys2Proof.Laws.Shape.jt (a t : Sys2Proof.Operand) : Sys2Proof.Laws.Shape.Statement (.jt a t) := fun _ => ⟨rfl, rfl⟩

theorem Sys2Proof.Laws.Shape.jf (a t : Sys2Proof.Operand) : Sys2Proof.Laws.Shape.Statement (.jf a t) := fun _ => ⟨rfl, rfl⟩

theorem Sys2Proof.Laws.Shape.add (d a b : Sys2Proof.Operand) : Sys2Proof.Laws.Shape.Statement (.add d a b) := fun _ => ⟨rfl, rfl⟩

theorem Sys2Proof.Laws.Shape.mult (d a b : Sys2Proof.Operand) : Sys2Proof.Laws.Shape.Statement (.mult d a b) := fun _ => ⟨rfl, rfl⟩

theorem Sys2Proof.Laws.Shape.mod (d a b : Sys2Proof.Operand) : Sys2Proof.Laws.Shape.Statement (.mod d a b) := fun _ => ⟨rfl, rfl⟩

theorem Sys2Proof.Laws.Shape.and (d a b : Sys2Proof.Operand) : Sys2Proof.Laws.Shape.Statement (.and d a b) := fun _ => ⟨rfl, rfl⟩

theorem Sys2Proof.Laws.Shape.or (d a b : Sys2Proof.Operand) : Sys2Proof.Laws.Shape.Statement (.or d a b) := fun _ => ⟨rfl, rfl⟩

theorem Sys2Proof.Laws.Shape.not (d a : Sys2Proof.Operand) : Sys2Proof.Laws.Shape.Statement (.not d a) := fun _ => ⟨rfl, rfl⟩

theorem Sys2Proof.Laws.Shape.rmem (d a : Sys2Proof.Operand) : Sys2Proof.Laws.Shape.Statement (.rmem d a) := fun _ => ⟨rfl, rfl⟩

theorem Sys2Proof.Laws.Shape.wmem (a b : Sys2Proof.Operand) : Sys2Proof.Laws.Shape.Statement (.wmem a b) := fun _ => ⟨rfl, rfl⟩

theorem Sys2Proof.Laws.Shape.call (a : Sys2Proof.Operand) : Sys2Proof.Laws.Shape.Statement (.call a) := fun _ => ⟨rfl, rfl⟩

theorem Sys2Proof.Laws.Shape.ret : Sys2Proof.Laws.Shape.Statement .ret := fun _ => ⟨rfl, rfl⟩

theorem Sys2Proof.Laws.Shape.out (a : Sys2Proof.Operand) : Sys2Proof.Laws.Shape.Statement (.out a) := fun _ => ⟨rfl, rfl⟩

theorem Sys2Proof.Laws.Shape.in_ (d : Sys2Proof.Operand) : Sys2Proof.Laws.Shape.Statement (.in_ d) := fun _ => ⟨rfl, rfl⟩

theorem Sys2Proof.Laws.Shape.noop : Sys2Proof.Laws.Shape.Statement .noop := fun _ => ⟨rfl, rfl⟩
end

