-- ==== Sys2Proof/Tests/Slice0.lean ====
section
/-! SUPPORT. The model's own tests, all single steps. Expected results are the vectors of spec/95_test_vectors.md, named in
each docstring; words in binary are written out from the encodings of spec/30_encoding.md R51 and R56. The last part shows,
for each obligation with hypotheses, a state and operands that meet them. -/

namespace Sys2Proof.Tests

open Sys2Proof.Machine

/-- The next state of a step, where there is one. -/
def nextOf (r : Result) : Option State :=
  match r with
  | .next s => some s
  | .fault _ => none
  | .refused _ => none

/-- The reset state with words placed from address 0. -/
def words (ws : List Word) : State := State.reset.placeAtPc ws

/-- The same with register `i` holding `v`. -/
def wordsReg (i : RegIx) (v : Value) (ws : List Word) : State := (words ws).setReg i v

/-- The reset state with `pc` at `p` and words placed from there. -/
def wordsAt (p : Word) (ws : List Word) : State := (State.reset.setPc p).placeAtPc ws

/-- The numbering in the reverse order of the table. -/
def reverseTable : OpNum :=
  #v[.noop, .in_, .out, .ret, .call, .wmem, .rmem, .not, .or, .and, .mod,
    .mult, .add, .jf, .jt, .jmp, .gt, .eq, .pop, .push, .set, .halt]

/-- Words at address 0 under it. -/
def reversed (ws : List Word) : State := { words ws with params := { opnum := reverseTable, stackMax := none } }

/-- The state a step leaves when it aborts: the state before it but for the run state (R151). -/
def aborted (s : State) (c : Cause) (pc opcode : Word) (index : Fin 4) (word : Word) : State :=
  { s with run := .aborted c { pc := pc, opcode := opcode, index := index, word := word } }

/-! ### WellFormed: a good term, and an ill-formed term for each check (R54, R59) -/

theorem test_wf_accepts : (Instr.add (.register 0) (.literal 32767) (.register 7)).wf = true := by decide
theorem test_wf_refuses_invalid_value : (Instr.push (.invalid 0)).wf = false := by decide
theorem test_wf_refuses_invalid_destination : (Instr.pop (.invalid 32759)).wf = false := by decide
theorem test_wf_refuses_literal_destination : (Instr.set (.literal 5) (.literal 7)).wf = false := by decide
theorem test_wf_refuses_later_operand : (Instr.jt (.literal 0) (.invalid 0)).wf = false := by decide

/-! ### Decode: one word written out bit by bit for each instruction (R51, R56) -/

theorem test_decode_halt : decode opcodeTable [0b0000000000000000] = .ok .halt := rfl
theorem test_decode_set : decode opcodeTable [0b0000000000000001, 0b1000000000000001, 0b0000010011010010] =
    .ok (.set (.register 1) (.literal 1234)) := rfl
theorem test_decode_push : decode opcodeTable [0b0000000000000010, 0b1000000000000111] = .ok (.push (.register 7)) := rfl
theorem test_decode_pop : decode opcodeTable [0b0000000000000011, 0b1000000000000000] = .ok (.pop (.register 0)) := rfl
theorem test_decode_eq : decode opcodeTable [0b0000000000000100, 0b1000000000000000, 0b1000000000000001, 0b0000000000000111] =
    .ok (.eq (.register 0) (.register 1) (.literal 7)) := rfl
theorem test_decode_gt : decode opcodeTable [0b0000000000000101, 0b1000000000000000, 0b0000000000001010, 0b0000000000000011] =
    .ok (.gt (.register 0) (.literal 10) (.literal 3)) := rfl
theorem test_decode_jmp : decode opcodeTable [0b0000000000000110, 0b0000000001100100] = .ok (.jmp (.literal 100)) := rfl
theorem test_decode_jt : decode opcodeTable [0b0000000000000111, 0b1000000000000000, 0b0000000000110010] =
    .ok (.jt (.register 0) (.literal 50)) := rfl
theorem test_decode_jf : decode opcodeTable [0b0000000000001000, 0b0000000000000001, 0b1000000000000001] =
    .ok (.jf (.literal 1) (.register 1)) := rfl
theorem test_decode_add : decode opcodeTable [0b0000000000001001, 0b1000000000000000, 0b0111111111111111, 0b0000000000000001] =
    .ok (.add (.register 0) (.literal 32767) (.literal 1)) := rfl
theorem test_decode_mult : decode opcodeTable [0b0000000000001010, 0b1000000000000010, 0b0000000011001000, 0b1000000000000011] =
    .ok (.mult (.register 2) (.literal 200) (.register 3)) := rfl
theorem test_decode_mod : decode opcodeTable [0b0000000000001011, 0b1000000000000100, 0b1000000000000011, 0b1000000000000000] =
    .ok (.mod (.register 4) (.register 3) (.register 0)) := rfl
theorem test_decode_and : decode opcodeTable [0b0000000000001100, 0b1000000000000101, 0b1000000000000011, 0b0000000011111111] =
    .ok (.and (.register 5) (.register 3) (.literal 255)) := rfl
theorem test_decode_or : decode opcodeTable [0b0000000000001101, 0b1000000000000110, 0b1000000000000101, 0b0000000100000000] =
    .ok (.or (.register 6) (.register 5) (.literal 256)) := rfl
theorem test_decode_not : decode opcodeTable [0b0000000000001110, 0b1000000000000010, 0b1000000000000000] =
    .ok (.not (.register 2) (.register 0)) := rfl
theorem test_decode_rmem : decode opcodeTable [0b0000000000001111, 0b1000000000000010, 0b0000000001100100] =
    .ok (.rmem (.register 2) (.literal 100)) := rfl
theorem test_decode_wmem : decode opcodeTable [0b0000000000010000, 0b0000000001100100, 0b0000000001001101] =
    .ok (.wmem (.literal 100) (.literal 77)) := rfl
theorem test_decode_call : decode opcodeTable [0b0000000000010001, 0b0000000000110010] = .ok (.call (.literal 50)) := rfl
theorem test_decode_ret : decode opcodeTable [0b0000000000010010] = .ok .ret := rfl
theorem test_decode_out : decode opcodeTable [0b0000000000010011, 0b0000000001001000] = .ok (.out (.literal 72)) := rfl
theorem test_decode_in : decode opcodeTable [0b0000000000010100, 0b1000000000000000] = .ok (.in_ (.register 0)) := rfl
theorem test_decode_noop : decode opcodeTable [0b0000000000010101] = .ok .noop := rfl

/-- The decoder's rejections, by name: 22 and 0x0100 have no mapping, an operand is missing, there is no word (R58, R34). -/
theorem test_decode_rejects : decode opcodeTable [22, 0, 0, 0] = .error (.invalidOpcode 22) ∧
    decode opcodeTable [0x0100, 0, 0, 0] = .error (.invalidOpcode 256) ∧
    decode opcodeTable [9, 32768, 1] = .error (.missingOperand .add 3) ∧ decode opcodeTable [] = .error .noOpcode := ⟨rfl, rfl, rfl, rfl⟩

/-- The bytes of P1's second instruction, little-endian (R46): `13 00 69 00` is `out 105`. -/
theorem test_decode_bytes : decodeBytes opcodeTable [0x13, 0x00, 0x69, 0x00] = .ok (.out (.literal 105)) := rfl

/-- An opcode-table row has 16 bits and operand words of zeros above them. -/
theorem test_decodeTableWord : decodeTableWord 16 21 = some .noop ∧
    decodeTableWord 16 9 = some (.add (.literal 0) (.literal 0) (.literal 0)) ∧ decodeTableWord 16 22 = none := by decide

/-- The instruction placed by `withFetchWord` is the one the next step runs. -/
theorem test_withFetchWord : nextOf (step (State.reset.withFetchWord 16 21)) =
    some { State.reset.withFetchWord 16 21 with pc := 1 } := by decide

/-! ### The fetch and the operand checks -/

/-- Vector E1. -/
theorem test_E1 : nextOf (step (words [256])) = some (aborted (words [256]) .invalidOpcode 0 256 0 256) := by decide
/-- Vector S12. -/
theorem test_S12 : nextOf (step (words [255])) = some (aborted (words [255]) .invalidOpcode 0 255 0 255) := by decide
/-- Vector E7. -/
theorem test_E7 : nextOf (step (words [2, 32776])) = some (aborted (words [2, 32776]) .operand 0 2 1 32776) := by decide
/-- Vector E10: the range check before the destination check. -/
theorem test_E10 : nextOf (step (words [1, 40000, 7])) = some (aborted (words [1, 40000, 7]) .operand 0 1 1 40000) := by
  decide
/-- Vector E11: operand 1 before operand 2. -/
theorem test_E11 : nextOf (step (words [1, 5, 40000])) = some (aborted (words [1, 5, 40000]) .destination 0 1 1 5) := by
  decide
/-- Vector E12: an operand that would not be used is checked. -/
theorem test_E12 : nextOf (step (words [7, 0, 32776])) = some (aborted (words [7, 0, 32776]) .operand 0 7 2 32776) := by
  decide
/-- Vector E13, second step. -/
theorem test_E13 : nextOf (step (State.reset.setPc 32768)) =
    some (aborted (State.reset.setPc 32768) .addressRange 32768 0 0 32768) := by decide
/-- Vector E14: the operand at 32768 is missing. -/
theorem test_E14 : nextOf (step (wordsAt 32766 [1, 32768])) =
    some (aborted (wordsAt 32766 [1, 32768]) .addressRange 32766 1 2 32768) := by decide
/-- Vector E15: the empty image. -/
theorem test_E15 : nextOf (step State.reset) = some { State.reset with run := .halted } := by decide

/-! ### The instructions -/

/-- Vector S-1. -/
theorem test_halt : nextOf (step { wordsReg 2 9 [0] with stack := [4, 3] }) =
    some { wordsReg 2 9 [0] with stack := [4, 3], run := .halted } := by decide
/-- Vector S-2, third step. -/
theorem test_halt_pc : (nextOf (step (wordsAt 2 [0]))).map (·.pc) = some 2 := by decide
/-- Vector S-2, first step. -/
theorem test_noop : nextOf (step (words [21, 21, 0])) = some { words [21, 21, 0] with pc := 1 } := by decide
/-- Vector E13, first step: the last word of memory. -/
theorem test_noop_top : (nextOf (step (wordsAt 32767 [21]))).map (·.pc) = some 32768 := by decide
/-- Vector M1. -/
theorem test_set : nextOf (step (words [1, 32769, 1234])) =
    some { words [1, 32769, 1234] with regs := #v[0, 1234, 0, 0, 0, 0, 0, 0], pc := 3 } := by decide
/-- Vector M2: 32768 is a reference, not a number. -/
theorem test_set_same : (nextOf (step (wordsReg 0 5 [1, 32768, 32768]))).map (·.getReg 0) = some 5 := by decide
/-- Vector M4: the content is pushed, not the reference. -/
theorem test_push : nextOf (step { wordsReg 3 9 [2, 32771] with stack := [4] }) =
    some { wordsReg 3 9 [2, 32771] with stack := [9, 4], pc := 2 } := by decide
/-- Vector E4: the largest literal. -/
theorem test_push_top : (nextOf (step (words [2, 32767]))).map (·.stack) = some [32767] := by decide
/-- Vector M5. -/
theorem test_pop : nextOf (step { words [3, 32768] with stack := [9, 4] }) =
    some { wordsReg 0 9 [3, 32768] with stack := [4], pc := 2 } := by decide
/-- Vector M9, second step: the word stays on the stack. -/
theorem test_pop_wide : nextOf (step { wordsAt 10 [3, 32768] with stack := [32768] }) =
    some (aborted { wordsAt 10 [3, 32768] with stack := [32768] } .valueRange 10 3 1 32768) := by decide
/-- Vector C2: resolved values, not raw words. -/
theorem test_eq : (nextOf (step ((wordsReg 0 9 [4, 32768, 32769, 5]).setReg 1 5))).map (·.getReg 0) = some 1 := by decide
/-- Vector C3. -/
theorem test_eq_differ : nextOf (step (wordsReg 0 9 [4, 32768, 3, 4])) =
    some { wordsReg 0 0 [4, 32768, 3, 4] with pc := 4 } := by decide
/-- Vector C7: unsigned. -/
theorem test_gt : (nextOf (step (words [5, 32768, 32767, 0]))).map (·.getReg 0) = some 1 := by decide
/-- Vector C6: strictly greater. -/
theorem test_gt_equal : (nextOf (step (wordsReg 0 7 [5, 32768, 3, 3]))).map (·.getReg 0) = some 0 := by decide
/-- Vector J2. -/
theorem test_jmp : nextOf (step (wordsReg 1 321 [6, 32769])) = some { wordsReg 1 321 [6, 32769] with pc := 321 } := by
  decide
/-- Vector J6: a literal condition, a register target. -/
theorem test_jt : (nextOf (step (wordsReg 1 9 [7, 1, 32769]))).map (·.pc) = some 9 := by decide
/-- Vector J5. -/
theorem test_jt_falls : nextOf (step (words [7, 32768, 50])) = some { words [7, 32768, 50] with pc := 3 } := by decide
/-- Vector J7. -/
theorem test_jf : (nextOf (step (words [8, 32768, 50]))).map (·.pc) = some 50 := by decide
/-- Vector J8. -/
theorem test_jf_falls : (nextOf (step (wordsReg 0 32767 [8, 32768, 50]))).map (·.pc) = some 3 := by decide
/-- Vector A1: the sum wraps. -/
theorem test_add_wraps : nextOf (step (wordsReg 0 3 [9, 32768, 32767, 1])) =
    some { wordsReg 0 0 [9, 32768, 32767, 1] with pc := 4 } := by decide
/-- Vector A3: the sources are also the destination. -/
theorem test_add_self : (nextOf (step (wordsReg 0 20000 [9, 32768, 32768, 32768]))).map (·.getReg 0) = some 7232 := by
  decide
/-- Vector A6. -/
theorem test_mult : (nextOf (step (words [10, 32768, 200, 200]))).map (·.getReg 0) = some 7232 := by decide
/-- Vector A7: the widest product. -/
theorem test_mult_wide : (nextOf (step (words [10, 32768, 32767, 32767]))).map (·.getReg 0) = some 1 := by decide
/-- Vector A10. -/
theorem test_mod : nextOf (step (words [11, 32768, 17, 5])) = some { wordsReg 0 2 [11, 32768, 17, 5] with pc := 4 } := by
  decide
/-- Vector A14: the report holds the raw operand word. -/
theorem test_mod_zero : nextOf (step (words [11, 32768, 17, 32769])) =
    some (aborted (words [11, 32768, 17, 32769]) .divideByZero 0 11 3 32769) := by decide
/-- Vector A15. -/
theorem test_and : (nextOf (step (words [12, 32768, 12, 10]))).map (·.getReg 0) = some 8 := by decide
/-- Vector A16. -/
theorem test_and_top : (nextOf (step (words [12, 32768, 32767, 21845]))).map (·.getReg 0) = some 21845 := by decide
/-- Vector A17. -/
theorem test_or : (nextOf (step (words [13, 32768, 12, 10]))).map (·.getReg 0) = some 14 := by decide
/-- Vector A18. -/
theorem test_or_top : (nextOf (step (words [13, 32768, 21845, 10922]))).map (·.getReg 0) = some 32767 := by decide
/-- Vector A19. -/
theorem test_not : nextOf (step (words [14, 32768, 0])) = some { wordsReg 0 32767 [14, 32768, 0] with pc := 3 } := by decide
/-- Vector A21. -/
theorem test_not_mid : (nextOf (step (words [14, 32768, 12345]))).map (·.getReg 0) = some 20422 := by decide
/-- Vector L2: the address register is the destination. -/
theorem test_rmem : nextOf (step (wordsReg 0 4 [15, 32768, 32768, 0, 77])) =
    some { wordsReg 0 77 [15, 32768, 32768, 0, 77] with pc := 3 } := by decide
/-- Vector L4: a word that is a register reference. -/
theorem test_rmem_wide : nextOf (step (words [15, 32768, 1])) =
    some (aborted (words [15, 32768, 1]) .valueRange 0 15 2 32768) := by decide
/-- Vector L7: no register is written. -/
theorem test_wmem : (nextOf (step ((wordsReg 0 100 [16, 32768, 32769]).setReg 1 77))).map
    (fun s => (Memory.readWord s.mem 100, s.getReg 0, s.getReg 1, s.pc)) = some (77, 100, 77, 3) := by decide
/-- Program P5, first step: the operand of the next instruction is overwritten. -/
theorem test_wmem_code : nextOf (step (words [16, 4, 66, 19, 65, 0])) =
    some { words [16, 4, 66, 19, 66, 0] with pc := 3 } := by decide
/-- Vector R1. -/
theorem test_call : nextOf (step (wordsAt 10 [17, 50])) = some { wordsAt 10 [17, 50] with stack := [12], pc := 50 } := by
  decide
/-- Vector R6, first step: the one return address above 32767. -/
theorem test_call_top : (nextOf (step (wordsAt 32766 [17, 10]))).map (·.stack) = some [32768] := by decide
/-- Vector R3. -/
theorem test_ret : nextOf (step { wordsAt 52 [18] with stack := [12, 7] }) =
    some { wordsAt 52 [18] with stack := [7], pc := 12 } := by decide
/-- Vector R4. -/
theorem test_ret_empty : nextOf (step (words [18])) = some { words [18] with run := .halted } := by decide
/-- Vector I2: the low 8 bits. -/
theorem test_out : nextOf (step (words [19, 321])) = some { words [19, 321] with output := [65], pc := 2 } := by decide
/-- Program P1, second step: after the bytes before it. -/
theorem test_out_order : (nextOf (step { words [19, 105] with output := [72] })).map (·.output) = some [72, 105] := by decide
/-- Vector I6: zero-extended. -/
theorem test_in : nextOf (step { words [20, 32768] with input := [255] }) =
    some { wordsReg 0 255 [20, 32768] with inputPos := 1, pc := 2 } := by decide
/-- Vector I8: the machine waits, no step being enabled. -/
theorem test_in_waits : step { words [20, 32768] with inputEnd := .pending } = .fault .waiting := rfl

/-! ### The parameters of R5, load and status -/

/-- Vector S11. -/
theorem test_boot_odd : State.boot Params.default [] [0x13, 0x00, 0x48] [] .exhausted = .error .oddLength := rfl
/-- The image of P2 is its words; the input is at its first byte. -/
theorem test_boot :
    State.boot Params.default [] [0x14, 0x00, 0x00, 0x80, 0x13, 0x00, 0x00, 0x80, 0x00, 0x00] [65] .exhausted =
    .ok { words [20, 32768, 19, 32768, 0] with input := [65] } := rfl
/-- R5, R28: an image over memory that held something: word 0 is the image's, word 1 as before. -/
theorem test_boot_over : (State.boot Params.default [(0, 7), (2, 9)] [0x15, 0x00] [] .exhausted).toOption.map
    (fun s => (Memory.readWord s.mem 0, Memory.readWord s.mem 1, Memory.readWord s.mem 2)) = some (21, 9, 0) := by decide
/-- R5, R56: under the numbering in reverse order the word 0 is `noop`, and 18 is `pop`, whose report has that number. -/
theorem test_other_opnum : nextOf (step (reversed [0])) = some { reversed [0] with pc := 1 } := by decide
theorem test_other_opnum_report : nextOf (step (reversed [18, 32768])) =
    some (aborted (reversed [18, 32768]) .stackUnderflow 0 18 0 0) := by decide
/-- R5, U13: a push beyond a finite `STACK_MAX` is refused, and one within it is not. -/
theorem test_stack_full : step { words [2, 5] with params := ⟨opcodeTable, some 1⟩, stack := [4] } = .refused .stackFull := rfl
theorem test_stack_room : (nextOf (step { words [2, 5] with params := ⟨opcodeTable, some 2⟩, stack := [4] })).map (·.stack) =
    some [5, 4] := by decide
/-- R5, R121: the endless input whose byte at position `n` is `n + 65`, at position 2. -/
theorem test_supply : (nextOf (step (State.supply (fun n => BitVec.ofNat 8 (n + 65))
    { words [20, 32768] with inputEnd := .endless, inputPos := 2 }))).map (·.getReg 0) = some 67 := by decide
/-- R24: the fields of vector L4's end state. -/
theorem test_status : (aborted (words [15, 32768, 1]) .valueRange 0 15 2 32768).status = ⟨2, 8, 0, 15, 2, 32768⟩ := by decide

/-! ### Witnesses: the hypotheses of the obligations, each clause at a boundary -/

/-- The default numbering and another are bijections; a list with one operation twice is none. -/
theorem witness_DecodeOfEncodeIsTheInstruction : opcodeTable.wf = true ∧ reverseTable.wf = true ∧
    OpNum.wf (reverseTable.set 0 .halt) = false := by decide

theorem witness_DecodedWordsAreTheEncoding : opcodeTable.wf = true ∧ decode opcodeTable [2, 32775, 9] = .ok (.push (.register 7)) := ⟨by decide, rfl⟩

theorem witness_OperandWordsAreClassifiedByRange :
    Operand.classify 0 = .literal 0 ∧ Operand.classify 32767 = .literal 32767 ∧ Operand.classify 32768 = .register 0 ∧
    Operand.classify 32775 = .register 7 ∧ Operand.classify 32776 = .invalid 0 ∧
    Operand.classify 65535 = .invalid 32759 ∧
    (∃ p ∈ (Instr.jt (.literal 0) (.invalid 0)).operands, p.2.valid = false) ∧
    (∃ p ∈ (Instr.set (.literal 5) (.invalid 0)).operands, p.2.valid = false) := by decide

theorem witness_ValueOperandsResolve :
    State.reset.val? (Operand.classify 32767) = some 32767 ∧
    (wordsReg 0 11 []).val? (Operand.classify 32768) = some 11 ∧
    (wordsReg 7 12 []).val? (Operand.classify 32775) = some 12 ∧ State.reset.val? (Operand.classify 32776) = none := by
  decide

theorem witness_StepRunsTheDecodedInstruction :
    (words [2, 5]).run = .running ∧ decode (words [2, 5]).params.opnum (words [2, 5]).fetchWindow = .ok (.push (.literal 5)) := ⟨rfl, rfl⟩

/-- A four-word instruction that ends at the last word of memory. -/
theorem witness_InstructionInMemoryIsExecuted :
    let s := wordsAt 32764 [9, 32768, 1, 2]
    let i := Instr.add (.register 0) (.literal 1) (.literal 2)
    s.run = .running ∧ s.params.opnum.wf = true ∧ s.pc.toNat + (encode s.params.opnum i).length ≤ 32768 ∧
    ∀ k : Fin (encode s.params.opnum i).length,
      Memory.readWord s.mem (s.pc.toNat + k.val) = (encode s.params.opnum i)[k] := by decide

theorem witness_FetchDependsOnPcAndMemory :
    (words [21]).params.opnum = (wordsReg 0 1 [21]).params.opnum ∧ (words [21]).pc = (wordsReg 0 1 [21]).pc ∧
    ∀ a, a < 32768 → Memory.readWord (words [21]).mem a = Memory.readWord (wordsReg 0 1 [21]).mem a :=
  ⟨rfl, rfl, fun _ _ => rfl⟩

theorem witness_IllegalOpcodeWordAborts :
    (wordsAt 32767 [22]).run = .running ∧ (wordsAt 32767 [22]).pc.toNat ≤ 32767 ∧
    Memory.readWord (wordsAt 32767 [22]).mem (wordsAt 32767 [22]).pc.toNat = 22 ∧ 21 < (22 : Word).toNat := by decide

/-- Each clause, and the first and the last operand word as the first past the end. -/
theorem witness_FetchPastTheEndAborts :
    (State.reset.setPc 32768).run = .running ∧ 32767 < (State.reset.setPc 32768).pc.toNat ∧
    State.reset.params.opnum.wf = true ∧
    (Memory.readWord (wordsAt 32767 [9]).mem 32767 = opcodeTable.num .add ∧ (wordsAt 32767 [9]).run = .running ∧
      (1 : Fin 4).val ≤ Opcode.operandCount .add ∧ (wordsAt 32767 [9]).pc.toNat + (1 : Fin 4).val = 32768) ∧
    Memory.readWord (wordsAt 32765 [9]).mem 32765 = opcodeTable.num .add ∧ (wordsAt 32765 [9]).run = .running ∧
    (3 : Fin 4).val ≤ Opcode.operandCount .add ∧ (wordsAt 32765 [9]).pc.toNat + (3 : Fin 4).val = 32768 := by decide

/-- The first clause with either cause; the second with an abort of the instruction's own. -/
theorem witness_FirstOperandAtFaultAborts :
    firstOperandFault 1 (Instr.wmem (.literal 5) (.invalid 0)).operands = some (.operand, 2, 32776) ∧
    firstOperandFault 1 (Instr.set (.literal 5) (.invalid 0)).operands = some (.destination, 1, 5) ∧
    firstOperandFault 1 (Instr.pop (.register 0)).operands = none ∧ (words []).run = .running ∧
    nextOf (exec (.pop (.register 0)) (words [])) = some (aborted (words []) .stackUnderflow 0 3 0 0) := by decide

theorem witness_TerminalStatesTakeNoStep :
    State.reset.halt.run = .halted ∧
    (aborted State.reset .operand 0 2 1 32776).run =
      .aborted .operand { pc := 0, opcode := 2, index := 1, word := 32776 } := by decide

/-- An instruction that neither waits nor lacks room; a running state at a silent `in`; one at a push without room. -/
theorem witness_RunningMachineHasANextState :
    (State.reset.sourceSilent = false ∧ State.reset.full = false ∧ State.reset.run = .running) ∧
    step { words [20, 32768] with inputEnd := .pending } = .fault .waiting ∧
    step { words [17, 5] with params := ⟨opcodeTable, some 0⟩ } = .refused .stackFull := ⟨by decide, rfl, rfl⟩

/-- The hypotheses of the statements about one, two or three values, with a literal and with a register: they serve the
statements of `set`, `push`, `eq`, `gt`, `jmp`, `jt`, `jf`, `add`, `mult`, `and`, `or`, `not`, `call` and `out`. -/
theorem witness_values :
    (wordsReg 7 0 []).val? (.literal 32767) = some 32767 ∧ (wordsReg 7 0 []).val? (.register 7) = some 0 ∧
    (wordsReg 7 32767 []).val? (.register 7) = some 32767 := by decide

theorem witness_SetCopiesAValue : (wordsReg 7 32767 []).val? (.register 7) = some 32767 := by decide
/-- With no `STACK_MAX`, and with one word of room left. -/
theorem witness_PushPutsTheValueOnTop : (wordsReg 3 9 []).val? (.register 3) = some 9 ∧
    (∀ m, (wordsReg 3 9 []).params.stackMax = some m → (wordsReg 3 9 []).stack.length < m) ∧
    ∀ m, some 1 = some m → ({ wordsReg 3 9 [] with params := ⟨opcodeTable, some 1⟩ } : State).stack.length < m :=
  ⟨rfl, (fun _ h => by cases h), (fun _ h => by cases h; decide)⟩
theorem witness_JmpGoesToTheValue : (wordsReg 1 321 []).val? (.register 1) = some 321 := by decide
theorem witness_CallPushesTheReturnAddress : (wordsReg 1 300 []).val? (.register 1) = some 300 ∧
    ∀ m, (wordsReg 1 300 []).params.stackMax = some m → (wordsReg 1 300 []).stack.length < m :=
  ⟨rfl, (fun _ h => by cases h)⟩
/-- Exactly full, and a bound of 0. -/
theorem witness_FiniteStackRefusesAPushBeyondIt : ∀ p ∈ [(0, ([] : List Word)), (1, [4])],
    let s : State := { words [] with params := ⟨opcodeTable, some p.1⟩, stack := p.2 }
    s.val? (.literal 5) = some 5 ∧ s.params.stackMax = some p.1 ∧ p.1 ≤ s.stack.length := by decide
theorem witness_OutEmitsTheLowByte : (wordsReg 0 321 []).val? (.register 0) = some 321 := by decide
theorem witness_NotComplementsFifteenBits : (wordsReg 0 12345 []).val? (.register 0) = some 12345 := by decide

/-- Equal, greater and smaller operands. -/
theorem witness_ComparisonsWriteOneOrZero :
    (wordsReg 0 77 []).val? (.register 0) = some 77 ∧ (wordsReg 0 77 []).val? (.literal 77) = some 77 ∧
    (wordsReg 0 77 []).val? (.literal 78) = some 78 ∧ (wordsReg 0 77 []).val? (.literal 0) = some 0 := by decide

/-- A condition of 0, of 1 and of 32767. -/
theorem witness_ConditionalJumpsTestForZero :
    State.reset.val? (.register 0) = some 0 ∧ State.reset.val? (.literal 1) = some 1 ∧
    State.reset.val? (.literal 32767) = some 32767 ∧ State.reset.val? (.literal 50) = some 50 := by decide

theorem witness_AddAndMultWrapModulo32768 :
    (wordsReg 0 20000 []).val? (.register 0) = some 20000 ∧ (wordsReg 0 20000 []).val? (.literal 32767) = some 32767 := by
  decide

/-- A divisor of 0 and of 1. -/
theorem witness_ModIsTheRemainderOrAborts :
    State.reset.val? (.literal 17) = some 17 ∧
    (State.reset.val? (.register 1) = some 0 ∧ (0 : Value).toNat = 0) ∧
    State.reset.val? (.literal 1) = some 1 ∧ (1 : Value).toNat ≠ 0 := by decide

theorem witness_AndAndOrWorkBitByBit :
    (wordsReg 3 4660 []).val? (.register 3) = some 4660 ∧ (wordsReg 3 4660 []).val? (.literal 255) = some 255 := by decide

/-- An empty stack, a top word of 32768, a top word of 32767. -/
theorem witness_PopMovesTheTopToARegister :
    State.reset.stack = [] ∧
    ((State.reset.push 32768).stack = 32768 :: [] ∧ 32767 < (32768 : Word).toNat) ∧
    (State.reset.push 32767).stack = 32767 :: [] ∧ (32767 : Word).toNat ≤ 32767 := by decide

/-- A word of 32768 and a word of 32767, at the last address. -/
theorem witness_RmemReadsAWordOrAborts :
    State.reset.val? (.literal 32767) = some 32767 ∧
    (Memory.readWord (wordsAt 32767 [32768]).mem (32767 : Value).toNat = 32768 ∧ 32767 < (32768 : Word).toNat) ∧
    Memory.readWord (wordsAt 32767 [32767]).mem (32767 : Value).toNat = 32767 ∧ (32767 : Word).toNat ≤ 32767 := by decide

/-- The last address, and a byte cell outside the word. -/
theorem witness_WmemStoresOneWord :
    (wordsReg 0 32767 []).val? (.register 0) = some 32767 ∧ (wordsReg 0 32767 []).val? (.literal 77) = some 77 ∧
    65533 ≠ 2 * (32767 : Value).toNat ∧ 65533 ≠ 2 * (32767 : Value).toNat + 1 := by decide

theorem witness_RetPopsTheAddressOrHalts :
    State.reset.stack = [] ∧ (State.reset.push 32768).stack = 32768 :: [] := by decide

/-- A listed byte; no listed byte and an endless source. -/
theorem witness_InReadsOneByte :
    { State.reset with input := [255] }.input = 255 :: [] ∧
    { State.reset with inputEnd := .endless }.input = [] ∧
    { State.reset with inputEnd := .endless }.inputEnd = .endless := by decide

theorem witness_InOnAnEndedSourceAborts : State.reset.input = [] ∧ State.reset.inputEnd = .exhausted := by decide

/-- An `in` that takes its byte from the endless source; a state that has a listed byte, and one whose source is not endless. -/
theorem witness_EndlessSourceIsReadByPosition :
    let s := { words [20, 32768] with inputEnd := .endless }
    (s.run = .running ∧ s.fetch = .ok (.in_ (.register 0)) ∧ s.input = [] ∧ s.inputEnd = .endless) ∧
    { s with input := [65] }.input ≠ [] ∧ State.reset.inputEnd ≠ .endless := ⟨⟨rfl, rfl, rfl, rfl⟩, by decide, by decide⟩

theorem witness_OnlyTheSourceLiftsAWait :
    let s := { words [20, 32768] with inputEnd := .pending }
    s.run = .running ∧ s.fetch = .ok (.in_ (.register 0)) ∧ s.sourceSilent = true := ⟨rfl, rfl, rfl⟩

/-- A state at the top of memory that satisfies the invariant and takes a step. -/
theorem witness_EveryStepKeepsTheInvariant :
    (wordsAt 32766 [17, 10]).Inv ∧
    nextOf (step (wordsAt 32766 [17, 10])) = some { wordsAt 32766 [17, 10] with stack := [32768], pc := 10 } :=
  ⟨⟨by decide, by decide, (fun _ h => by cases h), (fun _ h => by cases h), by decide, (fun _ _ h => by cases h)⟩, by decide⟩

theorem witness_EveryRunOfEveryImageKeepsTheInvariant :
    Params.default.opnum.wf = true ∧ Memory.wf [(2, 9)] = true ∧
    State.boot Params.default [(2, 9)] [0x15, 0x00] [] .pending = .ok { words [21, 9] with inputEnd := .pending } :=
  ⟨by decide, by decide, rfl⟩

theorem witness_NoStepChangesTheParameters : step (words [21]) = .next { words [21] with pc := 1 } := rfl

theorem witness_AbortChangesOnlyTheRunState :
    step (words [3, 32768]) = .next (aborted (words [3, 32768]) .stackUnderflow 0 3 0 0) ∧
    (aborted (words [3, 32768]) .stackUnderflow 0 3 0 0).run =
      .aborted .stackUnderflow { pc := 0, opcode := 3, index := 0, word := 0 } := ⟨rfl, rfl⟩

/-- A step that halts by either way, one that does not, and a halted state. -/
theorem witness_HaltedOnlyByHaltOrEmptyRet :
    step (words [0]) = .next (words [0]).halt ∧ step (words [18]) = .next (words [18]).halt ∧
    step (words [21]) = .next { words [21] with pc := 1 } ∧ (words [0]).halt.run = .halted := ⟨rfl, rfl, rfl, rfl⟩

/-- The eight causes, as in P8 of the vectors. -/
theorem witness_EachAbortHasItsOwnInstruction :
    State.reset.params.opnum.wf = true ∧
    step (words [255]) = .next (aborted (words [255]) .invalidOpcode 0 255 0 255) ∧
    step (words [2, 32776]) = .next (aborted (words [2, 32776]) .operand 0 2 1 32776) ∧
    step (words [1, 5, 7]) = .next (aborted (words [1, 5, 7]) .destination 0 1 1 5) ∧
    step (words [3, 32768]) = .next (aborted (words [3, 32768]) .stackUnderflow 0 3 0 0) ∧
    step (words [11, 32768, 17, 0]) = .next (aborted (words [11, 32768, 17, 0]) .divideByZero 0 11 3 0) ∧
    step (words [20, 32768]) = .next (aborted (words [20, 32768]) .ioExhausted 0 20 0 0) ∧
    step (State.reset.setPc 32768) = .next (aborted (State.reset.setPc 32768) .addressRange 32768 0 0 32768) ∧
    step (words [15, 32768, 1]) = .next (aborted (words [15, 32768, 1]) .valueRange 0 15 2 32768) :=
  ⟨by decide, rfl, rfl, rfl, rfl, rfl, rfl, rfl, rfl⟩

/-- An instruction that advances; `jt` and `jf` that do not jump. -/
theorem witness_SequentialAdvanceIsOnePlusOperands :
    (exec .noop (words []) = .next { words [] with pc := 1 } ∧ (words []).run = .running ∧
      Instr.noop.opcode ∉ [Opcode.jmp, .jt, .jf, .call, .ret]) ∧
    (exec (.jt (.register 0) (.literal 50)) (words []) = .next { words [] with pc := 3 } ∧
      (words []).val? (.register 0) = some 0) ∧
    exec (.jf (.literal 1) (.literal 50)) (words []) = .next { words [] with pc := 3 } ∧
    (words []).val? (.literal 1) ≠ some 0 :=
  ⟨⟨rfl, rfl, by decide⟩, ⟨rfl, rfl⟩, rfl, by decide⟩

/-- An instruction with another destination, and one with none. -/
theorem witness_OnlyTheDestinationRegisterChanges :
    (exec (.set (.register 1) (.literal 5)) (words []) = .next { wordsReg 1 5 [] with pc := 3 } ∧
      (Instr.set (.register 1) (.literal 5)).operands.head? ≠ some (.dest, .register 0)) ∧
    exec (.wmem (.register 0) (.literal 5)) (words []) = .next { words [] with mem := [(0, 5)], pc := 3 } ∧
    (Instr.wmem (.register 0) (.literal 5)).operands.head? ≠ some (.dest, .register 0) :=
  ⟨⟨rfl, by decide⟩, rfl, by decide⟩

/-- The destination register of an instruction that completes, that of one that aborts, and a register that is none. -/
theorem witness_OnlyValueOperandsReadRegisters :
    (words []).run = .running ∧
    ((Role.value, Operand.register 0) ∉ (Instr.set (.register 0) (.register 1)).operands ∧
      (Instr.set (.register 0) (.register 1)).operands.head? = some (.dest, .register 0) ∧
      exec (.set (.register 0) (.register 1)) (words []) = .next { words [] with pc := 3 }) ∧
    ((Instr.pop (.register 0)).operands.head? = some (.dest, .register 0) ∧
      exec (.pop (.register 0)) (words []) = .next (aborted (words []) .stackUnderflow 0 3 0 0)) ∧
    Instr.noop.operands.head? ≠ some (.dest, .register 0) :=
  ⟨rfl, ⟨by decide, rfl, rfl⟩, ⟨rfl, rfl⟩, by decide⟩

theorem witness_OnlyWmemWritesMemory :
    exec (.push (.literal 5)) (words []) = .next { words [] with stack := [5], pc := 2 } ∧
    (Instr.push (.literal 5)).opcode ≠ .wmem ∧
    step (words [16, 4, 66, 19, 65]) = .next { words [16, 4, 66, 19, 66] with pc := 3 } := ⟨rfl, by decide, rfl⟩

/-- Each clause: another instruction, an abort, a push, a pop. -/
theorem witness_OnlyFourInstructionsTouchTheStack :
    (words []).run = .running ∧
    (exec .noop (words []) = .next { words [] with pc := 1 } ∧ Instr.noop.opcode ∉ [Opcode.push, .call, .pop, .ret]) ∧
    (exec .ret (words []) = .next (words []).halt ∧ (words []).halt.run ≠ .running) ∧
    exec (.call (.literal 9)) (words []) = .next { words [] with stack := [2], pc := 9 } ∧
    exec .ret ((words []).push 7) = .next { words [] with pc := 7 } :=
  ⟨rfl, ⟨rfl, by decide⟩, ⟨rfl, by decide⟩, rfl, rfl⟩

theorem witness_OnlyInAndOutTouchTheChannels :
    exec (.out (.literal 321)) (words []) = .next { words [] with output := [65], pc := 2 } ∧
    (Instr.out (.literal 321)).opcode ≠ .in_ ∧
    exec (.in_ (.register 0)) { words [] with input := [65] } = .next { wordsReg 0 65 [] with inputPos := 1, pc := 2 } ∧
    (Instr.in_ (.register 0)).opcode ≠ .out := ⟨rfl, by decide, rfl, by decide⟩

theorem witness_OutputIsNeverReadBack :
    step (words [19, 72]) = .next { words [19, 72] with output := [72], pc := 2 } := rfl

theorem witness_WordWriteThenWordRead : (32766 : Nat) ≠ 32767 := by decide

theorem witness_CanonicalMemoryIsUnique :
    32767 < 32768 ∧ Memory.wf (words [65535, 0, 256]).mem = true ∧
    ∀ a, a < 32768 → Memory.readWord (words [1, 0]).mem a = Memory.readWord (words [1]).mem a :=
  ⟨by decide, by decide, fun _ _ => rfl⟩

/-- The first and the last word a fetch can see after the store. -/
theorem witness_StoreIsSeenByTheNextFetch :
    (words [16]).val? (.literal 3) = some 3 ∧ (words [16]).val? (.literal 6) = some 6 ∧
    (nextOf (exec (.wmem (.literal 3) (.literal 6)) (words [16]))).map (·.pc) = some 3 ∧
    (nextOf (exec (.wmem (.literal 6) (.literal 6)) (words [16]))).map (·.pc) = some 3 ∧
    (3 : Word).toNat ≤ (3 : Value).toNat ∧ (6 : Value).toNat < (3 : Word).toNat + 4 := by decide

/-- One byte, 32769 words, and 32768 words exactly. -/
theorem witness_BootLoadsTheImage :
    Memory.wf [(2, 9)] = true ∧ (List.replicate 1 (0 : Byte)).length % 2 = 1 ∧
    ((List.replicate 65538 (0 : Byte)).length % 2 = 0 ∧ 32768 < (List.replicate 65538 (0 : Byte)).length / 2) ∧
    (List.replicate 65536 (0 : Byte)).length % 2 = 0 ∧ (List.replicate 65536 (0 : Byte)).length / 2 ≤ 32768 := by
  simp only [List.length_replicate]; decide

theorem witness_ArithmeticLaws : (Operand.literal 32767).valid = true ∧ (Operand.register 7).valid = true := by decide

theorem witness_PushThenPopGivesTheValue :
    (wordsReg 3 9 []).val? (.register 3) = some 9 ∧
    exec (.push (.register 3)) (wordsReg 3 9 []) = .next { wordsReg 3 9 [] with stack := [9], pc := 2 } := ⟨rfl, rfl⟩

/-- At address 32766, where the return address is 32768. -/
theorem witness_CallThenRetComesBack :
    let t := { State.reset.setPc 32766 with stack := [32768], pc := 10 }
    (State.reset.setPc 32766).run = .running ∧ exec (.call (.literal 10)) (State.reset.setPc 32766) = .next t ∧
    t.run = .running ∧ (t.setReg 0 1).stack = t.stack := ⟨rfl, rfl, rfl, rfl⟩

/-- The address in a register when it is written, a literal when it is read. -/
theorem witness_WmemThenRmemGivesTheValue :
    let s := wordsReg 0 100 []
    let t := { s with mem := [(200, 77)], pc := 3 }
    s.val? (.register 0) = some 100 ∧ s.val? (.literal 77) = some 77 ∧
    exec (.wmem (.register 0) (.literal 77)) s = .next t ∧ (t.setReg 0 1).mem = t.mem ∧
    (t.setReg 0 1).val? (.literal 100) = some 100 := ⟨rfl, rfl, rfl, rfl, rfl⟩

end Sys2Proof.Tests
end

section
/-! The operand counts and the numbering of the operations (spec/00_scope.md R5, spec/30_encoding.md R56, R57). -/

namespace Sys2Proof

/-- A word above 21 has no operation, and the number of an operation has one. -/
theorem OpNum.num_toNat_le {n : OpNum} (h : n.wf = true) (op : Opcode) : (n.num op).toNat ≤ 21 := by
  by_contra hgt
  have hnone : n.ofWord (n.num op) = none := OpNum.ofWord_none_iff.2 (Nat.lt_of_not_le hgt)
  simp [OpNum.ofWord_num h] at hnone

/-- Settles O4: the counts and the default numbering by evaluation over the 22 operations; the number of an operation and
its way back from the laws of a bijective numbering; the operand lists from `Instr.operands_length`. -/
theorem operandCountsByMnemonic : Obligations.OperandCountsByMnemonic := by
  refine ⟨?none, ?one, ?two, ?three, opcodeTable_wf, ?numbering, Instr.operands_length⟩
  case none => decide
  case one => decide
  case two => decide
  case three => decide
  case numbering => exact fun n op h => ⟨OpNum.num_toNat_le h op, OpNum.ofWord_num h op⟩

end Sys2Proof
end

section
/-! The run state (spec/10_state.md R20, R21): which steps set the halted flag. -/

namespace Sys2Proof.Machine

/-- R21 on the ordinary outcomes: the run state is kept, but for `halt` and for `ret` on an empty stack. -/
theorem Effect.run_eq_or_halts {s t : State} {i : Instr} (h : Effect s i t) :
    t.run = s.run ∨ t = s.halt ∧ (i = .halt ∨ i = .ret ∧ s.stack = []) := by
  cases h with
  | halt => exact .inr ⟨rfl, .inl rfl⟩
  | retHalt hs => exact .inr ⟨rfl, .inr ⟨rfl, hs⟩⟩
  | jt | jf => left; split <;> rfl
  | _ => exact .inl rfl

theorem exec_ret_of_stack_nil {s : State} (h : s.stack = []) : exec .ret s = .next s.halt := by
  simp [exec, execRet, h]

/-- An instruction ends in `Halted` just when it is `halt` or a `ret` on an empty stack: every other ordinary outcome keeps
the run state, and an abort sets it to `Aborted`. -/
theorem exec_halted_iff {s t : State} {i : Instr} (hr : s.run ≠ .halted) (h : exec i s = .next t) :
    t.run = .halted ↔ i = .halt ∨ i = .ret ∧ s.stack = [] := by
  constructor
  · intro ht
    obtain he | ⟨c, k, w, -, rfl⟩ := exec_next h
    · obtain hrun | ⟨-, hi⟩ := he.run_eq_or_halts
      · exact absurd (hrun ▸ ht) hr
      · exact hi
    · simp at ht
  · rintro (rfl | ⟨rfl, hs⟩)
    · rw [← Host.Outcome.next.inj h, State.halt_run]
    · rw [exec_ret_of_stack_nil hs] at h
      rw [← Host.Outcome.next.inj h, State.halt_run]

/-- A step is taken from `Running` only, so by `exec_halted_iff` it ends in `Halted` just when the fetched instruction says so;
the abort of a fetch does not. -/
theorem step_halted_iff {s t : State} (h : step s = .next t) :
    t.run = .halted ↔ s.fetch = .ok .halt ∨ s.fetch = .ok .ret ∧ s.stack = [] := by
  obtain ⟨hr, ⟨i, hf, hx⟩ | ⟨e, -, hf, rfl⟩⟩ := step_next h
  · simpa [hf] using exec_halted_iff (by simp [hr]) hx
  · simp [hf]

/-- Settles O39: the machine runs at reset; the steps that halt are those of `step_halted_iff`; and a step is taken from
`Running` only, so none clears the flag. -/
theorem haltedOnlyByHaltOrEmptyRet : Obligations.HaltedOnlyByHaltOrEmptyRet := by
  refine ⟨?reset, fun s t h => step_halted_iff h, fun s t hs h => ?kept⟩
  case reset => decide
  case kept => simp [(step_next h).1] at hs

end Sys2Proof.Machine
end

section
/-! The sequential advance (spec/30_encoding.md R64): what neither redirects, stops nor waits goes on to the next instruction. -/

namespace Sys2Proof.Machine

/-- An instruction that leaves the machine running has not aborted: its outcome is an ordinary one. -/
theorem Effect.of_exec_running {i : Instr} {s t : State} (h : exec i s = .next t) (hr : t.run = .running) : Effect s i t := by
  obtain he | ⟨c, k, w, -, rfl⟩ := exec_next h
  · exact he
  · simp at hr

/-- R64 on the ordinary outcomes: of the instructions that are not jumps, calls or returns, only `halt` does not advance. -/
theorem Effect.pc_of_sequential {i : Instr} {s t : State} (h : Effect s i t) (hr : t.run = .running)
    (hi : i.opcode ∉ [Opcode.jmp, .jt, .jf, .call, .ret]) : t.pc = s.pc + BitVec.ofNat 16 i.opcode.length := by
  cases h with
  | halt => simp at hr
  | jmp | jt | jf | call | retHalt | ret => simp [Instr.opcode] at hi
  | _ => rfl

/-- R95: `jt` on 0 only advances. -/
theorem Effect.jt_zero {s t : State} {a b : Operand} (h : Effect s (.jt a b) t) (ha : s.val? a = some 0) :
    t = s.advance .jt := by
  cases h with
  | jt hx => simp [Option.some.inj (hx.symm.trans ha), nonZero]

/-- R96: `jf` on another value than 0 only advances. -/
theorem Effect.jf_nonZero {s t : State} {a b : Operand} (h : Effect s (.jf a b) t) (ha : s.val? a ≠ some 0) :
    t = s.advance .jf := by
  cases h with
  | @jf _ _ x _ hx =>
    have hx0 : nonZero x = true := bne_iff_ne.2 fun h0 => ha (h0 ▸ hx)
    simp [hx0]

/-- Settles O41: an instruction that leaves the machine running has an ordinary outcome (`Effect.of_exec_running`), and those
outcomes advance by the instruction's length (`Effect.pc_of_sequential`, `Effect.jt_zero`, `Effect.jf_nonZero`). -/
theorem sequentialAdvanceIsOnePlusOperands : Obligations.SequentialAdvanceIsOnePlusOperands := by
  refine ⟨fun i s t h _ hr hi => (Effect.of_exec_running h hr).pc_of_sequential hr hi,
    fun s t a b _ hr => ⟨fun h ha => ?jt, fun h ha => ?jf⟩⟩
  case jt => rw [(Effect.of_exec_running h hr).jt_zero ha, State.advance_pc]; rfl
  case jf => rw [(Effect.of_exec_running h hr).jf_nonZero ha, State.advance_pc]; rfl

end Sys2Proof.Machine
end

section
/-! The system instructions (spec/40_system.md R81): `noop` does nothing but advance. -/

namespace Sys2Proof.Machine

/-- R81: the effect of `noop` is the sequential advance (R64) alone, in every state. -/
@[simp] theorem exec_noop (s : State) : exec .noop s = .next (s.advance .noop) := rfl

/-- Settles O16: the number of `noop` by evaluation of the default numbering; its effect is the advance (`exec_noop`) by its
length, one word. -/
theorem noopOnlyAdvances : Obligations.NoopOnlyAdvances := by
  refine ⟨?encoding, fun s => ?effect⟩
  case encoding => decide
  case effect =>
    have hlen : Opcode.noop.length = 1 := rfl
    rw [exec_noop, State.advance, hlen]
    rfl

end Sys2Proof.Machine
end

section
/-! The move and stack instructions (spec/41_move_stack.md R84, R85): `set` copies the value its operand resolves to, `push`
puts it on top of the stack. -/

namespace Sys2Proof.Machine

/-- There is room exactly when every bound on the depth leaves it, as with no bound at all (R17). -/
theorem State.full_eq_false_iff {s : State} :
    s.full = false ↔ ∀ m, s.params.stackMax = some m → s.stack.length < m := by
  rw [← Bool.not_eq_true, State.full_iff]
  simp

/-- R84: on a register and an operand with a value, `set` writes that value and advances (R64). -/
theorem exec_set_of_val? {s : State} {a : Operand} {x : Value} (i : RegIx) (ha : s.val? a = some x) :
    exec (.set (.register i) a) s = .next ((s.setReg i x).advance .set) :=
  unary_some ha

/-- R85: with room on the stack, `push` puts the word of the resolved value on top and advances (R64). -/
theorem exec_push_of_val? {s : State} {a : Operand} {x : Value} (ha : s.val? a = some x) (hroom : s.full = false) :
    exec (.push a) s = .next ((s.push (valueWord x)).advance .push) := by
  rw [exec, execPush, withVal_some ha, withRoom_of_not_full hroom]

/-- Settles O17: the opcode word by evaluation of the default numbering; the next state is that of `exec_set_of_val?`, with
the advance by the instruction's length, three words. -/
theorem setCopiesAValue : Obligations.SetCopiesAValue := by
  refine fun s i a x ha => ⟨?encoding, ?effect⟩
  case encoding => rfl
  case effect => exact exec_set_of_val? i ha

/-- Settles O18: the word pushed is the value's own, and the next state is that of `exec_push_of_val?`, since the bound on
the stack leaves room (`State.full_eq_false_iff`). -/
theorem pushPutsTheValueOnTop : Obligations.PushPutsTheValueOnTop := by
  refine fun s a x ha hroom => ⟨?encoding, valueWord x, valueWord_toNat x, ?effect⟩
  case encoding => rfl
  case effect => exact exec_push_of_val? ha (State.full_eq_false_iff.2 hroom)

end Sys2Proof.Machine
end

section
/-! The jump instructions (spec/43_jump.md R94 to R96): a jump goes to the value of its target; `jt` and `jf` test the value of
their condition for 0. -/

namespace Sys2Proof.Machine

/-- The condition of `jt` (R95) in the value's number: `nonZero` fails on 0 alone. -/
theorem nonZero_iff {x : Value} : nonZero x = true ↔ x.toNat ≠ 0 := by
  rw [nonZero, bne_iff_ne, ne_eq, ← BitVec.toNat_inj]
  rfl

/-- A conditional jump whose test says `p` of its first value changes `pc` only: to the word of the second value when `p`
holds, else past the instruction (R64). -/
theorem condJump_of_test_iff {op : Opcode} {c : Value → Bool} {s : State} {a t : Operand} {x y : Value} {p : Prop}
    [Decidable p] (ha : s.val? a = some x) (ht : s.val? t = some y) (hc : c x = true ↔ p) :
    condJump op c a t s = .next (s.setPc (if p then valueWord y else s.pc + BitVec.ofNat 16 op.length)) := by
  rw [condJump_some ha ht]
  by_cases hp : p
  · rw [if_pos (hc.2 hp), if_pos hp]
  · rw [if_neg (mt hc.1 hp), if_neg hp, State.advance]

/-- R94: on an operand with a value, `jmp` sets `pc` to the word of that value. -/
theorem exec_jmp_of_val? {s : State} {a : Operand} {x : Value} (ha : s.val? a = some x) :
    exec (.jmp a) s = .next (s.setPc (valueWord x)) :=
  withVal_some ha

/-- R95: `jt` goes to its target on a condition other than 0, else to the next instruction. -/
theorem exec_jt_of_val? {s : State} {a t : Operand} {x y : Value} (ha : s.val? a = some x) (ht : s.val? t = some y) :
    exec (.jt a t) s = .next (s.setPc (if x.toNat ≠ 0 then valueWord y else s.pc + 3)) :=
  condJump_of_test_iff ha ht nonZero_iff

/-- R96: `jf` goes to its target on a condition of 0, else to the next instruction. -/
theorem exec_jf_of_val? {s : State} {a t : Operand} {x y : Value} (ha : s.val? a = some x) (ht : s.val? t = some y) :
    exec (.jf a t) s = .next (s.setPc (if x.toNat = 0 then valueWord y else s.pc + 3)) := by
  have hzero : (!nonZero x) = true ↔ x.toNat = 0 := by
    rw [Bool.not_eq_true', ← Bool.not_eq_true, nonZero_iff, not_not]
  exact condJump_of_test_iff ha ht hzero

/-- Settles O21: the opcode word by evaluation of the default numbering; the new `pc` is the word of the value
(`exec_jmp_of_val?`), which has the value's number. -/
theorem jmpGoesToTheValue : Obligations.JmpGoesToTheValue := by
  refine fun s a x ha => ⟨?encoding, valueWord x, valueWord_toNat x, ?effect⟩
  case encoding => rfl
  case effect => exact exec_jmp_of_val? ha

/-- Settles O22: the opcode words by evaluation of the default numbering; both jumps have one target, the word of the second
value, and test the first value for 0 with opposite outcomes (`exec_jt_of_val?`, `exec_jf_of_val?`). -/
theorem conditionalJumpsTestForZero : Obligations.ConditionalJumpsTestForZero := by
  refine fun s a t x y ha ht => ⟨?jtEncoding, ?jfEncoding, valueWord y, valueWord_toNat y, ?jt, ?jf⟩
  case jtEncoding => rfl
  case jfEncoding => rfl
  case jt => exact exec_jt_of_val? ha ht
  case jf => exact exec_jf_of_val? ha ht

end Sys2Proof.Machine
end

section
/-! The arithmetic and logic instructions (spec/44_alu.md R100, R101, R103 to R106): what the unit computes, as numbers and bit
by bit. -/

namespace Sys2Proof.Machine

/-- R106: 32768 values are exactly what 15 bits hold, so the reduction is the unit's own. -/
@[simp] theorem Alu.add_toNat (x y : Value) : (Alu.add x y).toNat = (x.toNat + y.toNat) % 32768 := by
  rw [Alu.add, BitVec.toNat_ofNat]
  exact Nat.mod_mod _ _

@[simp] theorem Alu.mult_toNat (x y : Value) : (Alu.mult x y).toNat = (x.toNat * y.toNat) % 32768 := by
  rw [Alu.mult, BitVec.toNat_ofNat]
  exact Nat.mod_mod _ _

@[simp] theorem Alu.and_getLsbD (x y : Value) (j : Nat) : (Alu.and x y).getLsbD j = (x.getLsbD j && y.getLsbD j) :=
  BitVec.getLsbD_and

@[simp] theorem Alu.or_getLsbD (x y : Value) (j : Nat) : (Alu.or x y).getLsbD j = (x.getLsbD j || y.getLsbD j) :=
  BitVec.getLsbD_or

/-- R105: inverting the 16-bit word and clearing its bit 15 is the complement within 15 bits. Both masks lose their top bit when
the word is narrowed, and what is left of each is all ones. -/
theorem Alu.not_eq_complement (x : Value) : Alu.not x = ~~~x := by
  have hinvert : (0xFFFF#16).setWidth 15 = BitVec.allOnes 15 := rfl
  have hclear : (0x7FFF#16).setWidth 15 = BitVec.allOnes 15 := rfl
  have hnarrow : (x.setWidth 16).setWidth 15 = x := valueWord_setWidth x
  rw [Alu.not, BitVec.setWidth_and, BitVec.setWidth_xor, hinvert, hclear, hnarrow, BitVec.and_allOnes, BitVec.xor_allOnes]

theorem Alu.not_toNat (x : Value) : (Alu.not x).toNat = 32767 - x.toNat := by
  rw [Alu.not_eq_complement, BitVec.toNat_not]

theorem Alu.not_getLsbD (x : Value) {j : Nat} (hj : j < 15) : (Alu.not x).getLsbD j = !x.getLsbD j := by
  rw [Alu.not_eq_complement, BitVec.getLsbD_not, decide_eq_true hj, Bool.true_and]

/-- Settles O23: the opcode words by evaluation of the default numbering; the values written are `Alu.add` and `Alu.mult` of the
operands' values (`binary_some`), exact before one reduction (`Alu.add_toNat`, `Alu.mult_toNat`). -/
theorem addAndMultWrapModulo32768 : Obligations.AddAndMultWrapModulo32768 := by
  refine fun s i a b x y ha hb => ⟨?addEncoding, ?multEncoding, ⟨Alu.add x y, Alu.add_toNat x y, ?add⟩,
    Alu.mult x y, Alu.mult_toNat x y, ?mult⟩
  case addEncoding => rfl
  case multEncoding => rfl
  case add => exact binary_some ha hb
  case mult => exact binary_some ha hb

/-- Settles O25: the opcode words by evaluation of the default numbering; the values written are `Alu.and` and `Alu.or` of the
operands' values (`binary_some`), whose bits are those of `Alu.and_getLsbD` and `Alu.or_getLsbD`. -/
theorem andAndOrWorkBitByBit : Obligations.AndAndOrWorkBitByBit := by
  refine fun s i a b x y ha hb => ⟨?andEncoding, ?orEncoding, ⟨Alu.and x y, fun j _ => Alu.and_getLsbD x y j, ?and⟩,
    Alu.or x y, fun j _ => Alu.or_getLsbD x y j, ?or⟩
  case andEncoding => rfl
  case orEncoding => rfl
  case and => exact binary_some ha hb
  case or => exact binary_some ha hb

/-- Settles O26: the opcode word by evaluation of the default numbering; the value written is `Alu.not` of the operand's value
(`unary_some`), the complement within 15 bits (`Alu.not_eq_complement`) as a number and bit by bit. -/
theorem notComplementsFifteenBits : Obligations.NotComplementsFifteenBits := by
  refine fun s i a x ha => ⟨?encoding, Alu.not x, Alu.not_toNat x, fun j hj => Alu.not_getLsbD x hj, ?effect⟩
  case encoding => rfl
  case effect => exact unary_some ha

end Sys2Proof.Machine
end

section
/-! The subroutine instructions (spec/46_call_ret.md R114): `call` saves the address of the word after its operand and jumps. -/

namespace Sys2Proof.Machine

/-- R114: with room on the stack, `call` pushes `pc + 2` and sets `pc` to the word of its operand's value. -/
theorem exec_call_of_val? {s : State} {a : Operand} {x : Value} (ha : s.val? a = some x) (hroom : s.full = false) :
    exec (.call a) s = .next ((s.push (s.pc + 2)).setPc (valueWord x)) := by
  rw [exec, execCall, withVal_some ha, withRoom_of_not_full hroom]

/-- Settles O29: the opcode word by evaluation of the default numbering; the new `pc` is the word of the value, which has the
value's number, and the next state is that of `exec_call_of_val?`, since the bound on the stack leaves room
(`State.full_eq_false_iff`). -/
theorem callPushesTheReturnAddress : Obligations.CallPushesTheReturnAddress := by
  refine fun s a x ha hroom => ⟨?encoding, valueWord x, valueWord_toNat x, ?effect⟩
  case encoding => rfl
  case effect => exact exec_call_of_val? ha (State.full_eq_false_iff.2 hroom)

end Sys2Proof.Machine
end

section
/-! The decoder against the encoder (spec/30_encoding.md R50 to R52, R56, R59, R60): each undoes the other, so that an
instruction has just one encoding, in which every bit counts. -/

namespace Sys2Proof

/-- R59: every word is the word of the operand it is classified as, so classifying loses no bit of it. -/
@[simp] theorem Operand.word_classify (w : Word) : (Operand.classify w).word = w := by
  have hw : w.toNat < 65536 := w.isLt
  apply BitVec.eq_of_toNat_eq
  rcases (by omega : w.toNat ≤ 32767 ∨ (32768 ≤ w.toNat ∧ w.toNat ≤ 32775) ∨ 32776 ≤ w.toNat) with h | ⟨h, h'⟩ | h
  · simp only [Operand.classify_literal h, Operand.word, BitVec.toNat_setWidth]
    omega
  · simp only [Operand.classify_register h h', Operand.word, BitVec.toNat_ofNat, Fin.val_ofNat]
    omega
  · simp only [Operand.classify_invalid h, Operand.word, BitVec.toNat_ofNat, Fin.val_ofNat]
    omega

/-- The words of an instruction's operands, in their order (R51). -/
def Instr.operandWords (i : Instr) : List Word := i.operands.map fun p => p.2.word

theorem encode_eq (n : OpNum) (i : Instr) : encode n i = n.num i.opcode :: i.operandWords := rfl

@[simp] theorem Instr.operandWords_length (i : Instr) : i.operandWords.length = i.opcode.operandCount := by
  rw [Instr.operandWords, List.length_map, Instr.operands_length]

/-- R50, R60: an encoding is as long as its operation says. -/
@[simp] theorem encode_length (n : OpNum) (i : Instr) : (encode n i).length = i.opcode.length := by
  rw [encode_eq, List.length_cons, Instr.operandWords_length, Opcode.length, Nat.add_comm]

/-- R50: an instruction has at most four words. -/
theorem Opcode.length_le (op : Opcode) : op.length ≤ 4 := by
  have := op.operandCount_le
  simp only [Opcode.length]
  omega

/-- R51: the operation of an instruction makes that instruction again of its operand words, whatever follows them. -/
theorem assemble_operandWords (i : Instr) (rest : List Word) :
    assemble i.opcode ((i.operandWords ++ rest).getD 0 0) ((i.operandWords ++ rest).getD 1 0)
      ((i.operandWords ++ rest).getD 2 0) = i := by
  cases i <;> simp [Instr.operandWords, Instr.operands, Instr.opcode, assemble]

/-- R51: the operand words of what an operation makes of three words are as many of them as it has operands. -/
theorem operandWords_assemble (op : Opcode) (w1 w2 w3 : Word) :
    (assemble op w1 w2 w3).operandWords = [w1, w2, w3].take op.operandCount := by
  cases op <;> simp [Instr.operandWords, Instr.operands, assemble, Opcode.operandCount]

/-- A word that has an operation, with enough words after it, decodes to what the operation makes of the first three. -/
theorem decode_of_ofWord {n : OpNum} {w : Word} {ws : List Word} {op : Opcode} (ho : n.ofWord w = some op)
    (hc : op.operandCount ≤ ws.length) :
    decode n (w :: ws) = .ok (assemble op (ws.getD 0 0) (ws.getD 1 0) (ws.getD 2 0)) := by
  simp [decode, ho, Nat.not_lt.2 hc]

theorem decode_encode_append {n : OpNum} (h : n.wf = true) (i : Instr) (rest : List Word) :
    decode n (encode n i ++ rest) = .ok i := by
  have hc : i.opcode.operandCount ≤ (i.operandWords ++ rest).length := by simp
  rw [encode_eq, List.cons_append, decode_of_ofWord (OpNum.ofWord_num h _) hc, assemble_operandWords]

/-- The first words of a list, at most three, are the first of its first three. -/
theorem take_getD_three {ws : List Word} {k : Nat} (hk : k ≤ 3) (hl : k ≤ ws.length) :
    [ws.getD 0 0, ws.getD 1 0, ws.getD 2 0].take k = ws.take k := by
  apply List.ext_getElem?
  intro j
  simp only [List.getElem?_take]
  split
  · have hj : j < ws.length := by omega
    obtain rfl | rfl | rfl : j = 0 ∨ j = 1 ∨ j = 2 := by omega
    all_goals simp [List.getD_eq_getElem?_getD, hj]
  · rfl

/-- R51, R59: what decodes begins with the encoding of the instruction read. -/
theorem decode_ok_encode {n : OpNum} (h : n.wf = true) {ws : List Word} {i : Instr} (hd : decode n ws = .ok i) :
    ∃ rest, ws = encode n i ++ rest := by
  obtain ⟨w, rest, rfl, ho, hc, hi⟩ := Machine.decode_ok hd
  have hwords : i.operandWords = rest.take i.opcode.operandCount := by
    conv_lhs => rw [hi]
    rw [operandWords_assemble, take_getD_three i.opcode.operandCount_le hc]
  refine ⟨rest.drop i.opcode.operandCount, ?_⟩
  rw [encode_eq, OpNum.num_of_ofWord h ho, hwords, List.cons_append, List.take_append_drop]

/-- Settles O1: the number of the operation leads back to it, and the operation makes the instruction again of its operand
words (`decode_encode_append`). -/
theorem decodeOfEncodeIsTheInstruction : Obligations.DecodeOfEncodeIsTheInstruction :=
  fun n i rest h => ⟨decode_encode_append h i rest, encode_length n i⟩

/-- Settles O2: each operand word is recovered from its operand (`Operand.word_classify`), so the words read are the encoding
(`decode_ok_encode`). -/
theorem decodedWordsAreTheEncoding : Obligations.DecodedWordsAreTheEncoding :=
  fun _ _ _ h hd => decode_ok_encode h hd

/-- Settles O3: each list of words is evaluated under the default numbering. -/
theorem writtenOutWordsDecode : Obligations.WrittenOutWordsDecode :=
  ⟨rfl, rfl, rfl, rfl, rfl, rfl, rfl, rfl, rfl, rfl⟩

end Sys2Proof
end

section
/-! The instruction cycle (spec/30_encoding.md R50, R61, R62, spec/20_memory.md R34): what a fetch depends on, and what a step
makes of what it fetched. -/

namespace Sys2Proof.Machine

/-- What the window decodes to is what is fetched. -/
theorem State.fetch_of_decode {s : State} {i : Instr} (h : decode s.params.opnum s.fetchWindow = .ok i) :
    s.fetch = .ok i := by
  simp [State.fetch, h]

theorem State.fetch_of_decode_error {s : State} {e : DecodeError}
    (h : decode s.params.opnum s.fetchWindow = .error e) : s.fetch = .error (s.fetchAbort e) := by
  simp [State.fetch, h]

theorem step_of_fetch {s : State} {i : Instr} (hr : s.run = .running) (h : s.fetch = .ok i) : step s = exec i s := by
  simp [step, hr, h]

/-- R62 phases 1 to 3: a running machine whose words do not decode takes the abort of its fetch. -/
theorem step_of_decode_error {s : State} {e : DecodeError} (hr : s.run = .running)
    (h : decode s.params.opnum s.fetchWindow = .error e) :
    step s = .next (s.abort (s.fetchAbort e).1 (s.fetchAbort e).2) := by
  simp [step, hr, State.fetch_of_decode_error h]

/-! The rejections of the decoder (R61), each from the words that cause it. -/

theorem decode_invalidOpcode {n : OpNum} {w : Word} (ws : List Word) (h : 21 < w.toNat) :
    decode n (w :: ws) = .error (.invalidOpcode w) := by
  simp [decode, OpNum.ofWord_none_iff.2 h]

theorem decode_missingOperand {n : OpNum} {w : Word} {ws : List Word} {op : Opcode} (ho : n.ofWord w = some op)
    (hl : ws.length < op.operandCount) :
    decode n (w :: ws) = .error (.missingOperand op (Fin.ofNat 4 (ws.length + 1))) := by
  simp [decode, ho, hl]

/-- The window holds any words that are in memory from `pc` on, when there are at most four and they end inside it. -/
theorem State.fetchWindow_of_words {s : State} {ws : List Word} (h4 : ws.length ≤ 4)
    (hin : s.pc.toNat + ws.length ≤ 32768)
    (hm : ∀ k (hk : k < ws.length), Memory.readWord s.mem (s.pc.toNat + k) = ws[k]) :
    ws <+: s.fetchWindow := by
  rw [List.prefix_iff_getElem?]
  intro k hk
  rw [s.fetchWindow_getElem?, if_pos (by omega), hm k hk]

/-- The report of a failed fetch is made of `pc` and of the numbering (R141, R147). -/
theorem State.fetchAbort_congr {s t : State} (hn : s.params.opnum = t.params.opnum) (hpc : s.pc = t.pc)
    (e : DecodeError) : s.fetchAbort e = t.fetchAbort e := by
  cases e <;> simp [State.fetchAbort, hn, hpc]

/-- The window is made of words inside memory, those from `pc` on. -/
theorem State.fetchWindow_congr {s t : State} (hpc : s.pc = t.pc)
    (hm : ∀ a, a < 32768 → Memory.readWord s.mem a = Memory.readWord t.mem a) : s.fetchWindow = t.fetchWindow := by
  rw [s.fetchWindow_eq, t.fetchWindow_eq, hpc]
  refine List.map_congr_left fun k hk => hm _ ?_
  have := List.mem_range.1 hk
  omega

/-- R61: the fetch looks at the numbering, at `pc` and at the words of memory. -/
theorem State.fetch_congr {s t : State} (hn : s.params.opnum = t.params.opnum) (hpc : s.pc = t.pc)
    (hm : ∀ a, a < 32768 → Memory.readWord s.mem a = Memory.readWord t.mem a) : s.fetch = t.fetch := by
  simp only [State.fetch, State.fetchWindow_congr hpc hm, hn, State.fetchAbort_congr hn hpc]

/-- Settles O7: what the window decodes to is fetched, and a running machine executes what it fetched. -/
theorem stepRunsTheDecodedInstruction : Obligations.StepRunsTheDecodedInstruction :=
  fun _ _ hr hd => step_of_fetch hr (State.fetch_of_decode hd)

/-- Settles O8: the window begins with the encoding (`State.fetchWindow_of_words`), which decodes to its instruction whatever
words follow. -/
theorem instructionInMemoryIsExecuted : Obligations.InstructionInMemoryIsExecuted := by
  intro s i hr hn hin hm
  have h4 : (encode s.params.opnum i).length ≤ 4 := by rw [encode_length]; exact i.opcode.length_le
  obtain ⟨rest, hw⟩ := State.fetchWindow_of_words h4 hin fun k hk => hm ⟨k, hk⟩
  exact step_of_fetch hr (State.fetch_of_decode (hw ▸ decode_encode_append hn i rest))

/-- Settles O9: the window and the reports are made of the numbering, `pc` and memory (`State.fetch_congr`). -/
theorem fetchDependsOnPcAndMemory : Obligations.FetchDependsOnPcAndMemory :=
  fun _ _ => State.fetch_congr

/-- Settles O10: the window begins with the opcode word, which has no operation. -/
theorem illegalOpcodeWordAborts : Obligations.IllegalOpcodeWordAborts := by
  rintro s w hr hpc rfl hw
  obtain ⟨ws, hws, -⟩ := s.fetchWindow_cons hpc
  exact step_of_decode_error hr (hws ▸ decode_invalidOpcode ws hw)

/-- Settles O11: above 32767 the window is empty; with its end before operand word `k` it holds the opcode word and `k - 1`
more. -/
theorem fetchPastTheEndAborts : Obligations.FetchPastTheEndAborts := by
  refine ⟨fun s hr hpc => ?opcodeWord, fun s op k hr hn hop hk1 hk hend => ?operandWord⟩
  case opcodeWord =>
    exact step_of_decode_error (e := .noOpcode) hr (by rw [s.fetchWindow_nil hpc]; rfl)
  case operandWord =>
    obtain ⟨ws, hws, hl⟩ := s.fetchWindow_cons (by omega)
    have hlen : ws.length + 1 = k.val := by omega
    have hd : decode s.params.opnum s.fetchWindow = .error (.missingOperand op k) := by
      rw [hws, hop, decode_missingOperand (OpNum.ofWord_num hn op) (by omega), hlen, Fin.ofNat_val_eq_self]
    have hword : s.pc + BitVec.ofNat 16 k.val = 32768 := by
      apply BitVec.eq_of_toNat_eq
      simp [BitVec.toNat_add, hend]
    rw [step_of_decode_error hr hd, State.fetchAbort, hword]
    rfl

/-- Settles O13: by the run state alone, before any fetch. -/
theorem terminalStatesTakeNoStep : Obligations.TerminalStatesTakeNoStep :=
  ⟨fun s h => by simp [step, h], fun s c info h => by simp [step, h]⟩

end Sys2Proof.Machine
end

section
/-! Operands (spec/30_encoding.md R52 to R54, R63; spec/60_exceptions.md R142, R143): their classes by range, and the abort of
the first one at fault. -/

namespace Sys2Proof.Machine

/-! ### The check of one operand -/

theorem operandFault_of_not_valid {r : Role} {o : Operand} (h : o.valid = false) : operandFault r o = some .operand := by
  cases o with
  | literal | register => simp [Operand.valid] at h
  | invalid n => rfl

theorem Operand.valid_of_no_fault {r : Role} {o : Operand} (h : operandFault r o = none) : o.valid = true := by
  cases o with
  | literal | register => rfl
  | invalid n => simp [operandFault] at h

/-- An operand is at fault as an invalid word, or as a literal in a destination. -/
theorem operandFault_some {r : Role} {o : Operand} {c : Cause} (h : operandFault r o = some c) :
    c = .operand ∨ c = .destination ∧ r = .dest ∧ ∃ v, o = .literal v := by
  cases o with
  | literal v => cases r <;> simp_all [operandFault]
  | register i => cases r <;> simp [operandFault] at h
  | invalid n => exact .inl (Option.some.inj h).symm

/-! ### The first operand at fault -/

theorem firstOperandFault_cons_some {k j : Nat} {r : Role} {o : Operand} {rest : List (Role × Operand)} {c : Cause}
    {i : Fin 4} {w : Word} (h : firstOperandFault k ((r, o) :: rest) = some (c, i, w)) (hj : j = k + 1) :
    operandFault r o = some c ∧ i = Fin.ofNat 4 k ∧ w = o.word ∨
    operandFault r o = none ∧ firstOperandFault j rest = some (c, i, w) := by
  subst hj
  cases ho : operandFault r o with
  | none => exact .inr ⟨rfl, by simpa [firstOperandFault, ho] using h⟩
  | some d =>
    simp only [firstOperandFault, ho, Option.some.injEq, Prod.mk.injEq] at h
    obtain ⟨rfl, rfl, rfl⟩ := h
    exact .inl ⟨rfl, rfl, rfl⟩

/-- With no first operand at fault no operand is at fault. -/
theorem operandFault_of_first_none {k : Nat} {l : List (Role × Operand)} {r : Role} {o : Operand}
    (h : firstOperandFault k l = none) (hm : (r, o) ∈ l) : operandFault r o = none := by
  induction l generalizing k with
  | nil => simp at hm
  | cons p rest ih =>
    obtain ⟨r', o'⟩ := p
    cases ho : operandFault r' o' with
    | some c => simp [firstOperandFault, ho] at h
    | none =>
      simp only [firstOperandFault, ho] at h
      obtain he | hm := List.mem_cons.1 hm
      · obtain ⟨rfl, rfl⟩ := Prod.mk.inj he
        exact ho
      · exact ih h hm

/-- The cause of the first operand at fault is that of one of the operands. -/
theorem exists_operandFault_of_first {k : Nat} {l : List (Role × Operand)} {c : Cause} {i : Fin 4} {w : Word}
    (h : firstOperandFault k l = some (c, i, w)) : ∃ r o, (r, o) ∈ l ∧ operandFault r o = some c := by
  induction l generalizing k with
  | nil => simp [firstOperandFault] at h
  | cons p rest ih =>
    obtain ⟨r, o⟩ := p
    obtain ⟨ho, -, -⟩ | ⟨-, hrest⟩ := firstOperandFault_cons_some h rfl
    · exact ⟨r, o, by simp, ho⟩
    · obtain ⟨r', o', hm, ho'⟩ := ih hrest
      exact ⟨r', o', by simp [hm], ho'⟩

/-- R51: only the first operand of an instruction can be a destination. -/
theorem Instr.head?_of_dest_mem {i : Instr} {o : Operand} (h : (Role.dest, o) ∈ i.operands) :
    i.operands.head? = some (.dest, o) := by
  cases i <;> simp_all [Instr.operands]

/-! ### Phase 4 of the instruction cycle -/

section
variable {op : Opcode} {k : Nat} {s : State} {o : Operand} {rest : List (Role × Operand)} {c : Cause} {i : Fin 4} {w : Word}

/-- A value operand raises its own fault, or leaves those of the operands after it. -/
theorem withVal_of_fault {f : Value → Result} (h : firstOperandFault k ((.value, o) :: rest) = some (c, i, w))
    (hf : ∀ x, firstOperandFault (k + 1) rest = some (c, i, w) → f x = s.raise op i w c) :
    withVal op (Fin.ofNat 4 k) o s f = s.raise op i w c := by
  obtain ⟨ho, rfl, rfl⟩ | ⟨ho, hrest⟩ := firstOperandFault_cons_some h rfl
  · cases o with
    | literal | register => simp [operandFault] at ho
    | invalid n => rw [← Option.some.inj ho]; rfl
  · cases o with
    | literal v => exact hf v hrest
    | register j => exact hf _ hrest
    | invalid n => simp [operandFault] at ho

/-- A destination raises its own fault, or leaves those of the operands after it. -/
theorem withDst_of_fault {f : RegIx → Result} (h : firstOperandFault k ((.dest, o) :: rest) = some (c, i, w))
    (hf : ∀ r, firstOperandFault (k + 1) rest = some (c, i, w) → f r = s.raise op i w c) :
    withDst op (Fin.ofNat 4 k) o s f = s.raise op i w c := by
  obtain ⟨ho, rfl, rfl⟩ | ⟨ho, hrest⟩ := firstOperandFault_cons_some h rfl
  · cases o with
    | register j => simp [operandFault] at ho
    | literal v => rw [← Option.some.inj ho]; rfl
    | invalid n => rw [← Option.some.inj ho]; rfl
  · cases o with
    | register j => exact hf j hrest
    | literal | invalid => simp [operandFault] at ho

theorem firstOperandFault_nil_elim {p : Prop} (h : firstOperandFault k [] = some (c, i, w)) : p := by
  simp [firstOperandFault] at h

end

/-- R63 (4): an instruction with an operand at fault raises the fault of the first, before it does anything else. -/
theorem exec_of_firstOperandFault {i : Instr} {s : State} {c : Cause} {k : Fin 4} {w : Word}
    (h : firstOperandFault 1 i.operands = some (c, k, w)) : exec i s = s.raise i.opcode k w c := by
  cases i with
  | halt | ret | noop => exact firstOperandFault_nil_elim h
  | push | jmp | call | out => exact withVal_of_fault h fun _ => firstOperandFault_nil_elim
  | pop | in_ => exact withDst_of_fault h fun _ => firstOperandFault_nil_elim
  | jt | jf | wmem => exact withVal_of_fault h fun _ h => withVal_of_fault h fun _ => firstOperandFault_nil_elim
  | set | not | rmem => exact withDst_of_fault h fun _ h => withVal_of_fault h fun _ => firstOperandFault_nil_elim
  | eq | gt | add | mult | mod | and | or =>
    exact withDst_of_fault h fun _ h => withVal_of_fault h fun _ h => withVal_of_fault h fun _ =>
      firstOperandFault_nil_elim

/-- With no operand at fault an instruction raises neither cause of phase 4. -/
theorem Raises.cause_ne_of_no_fault {s : State} {i : Instr} {c : Cause} {k : Fin 4} {w : Word} (h : Raises s i c k w)
    (hn : firstOperandFault 1 i.operands = none) : c ≠ .operand ∧ c ≠ .destination := by
  cases h with
  | operand hm hv => simpa [operandFault_of_not_valid hv] using operandFault_of_first_none hn hm
  | destination hh => simpa [operandFault] using operandFault_of_first_none hn (List.mem_of_mem_head? hh)
  | underflow | divide | ended | widePop | wideRead => decide

/-- An invalid operand is at fault in every role, so some operand is the first at fault. -/
theorem Instr.exists_fault_of_not_valid {i : Instr} (h : ∃ p ∈ i.operands, p.2.valid = false) :
    ∃ c k w, firstOperandFault 1 i.operands = some (c, k, w) := by
  obtain ⟨⟨r, o⟩, hm, hv⟩ := h
  cases hf : firstOperandFault 1 i.operands with
  | some x => exact ⟨_, _, _, rfl⟩
  | none =>
    have hvalid := Operand.valid_of_no_fault (operandFault_of_first_none hf hm)
    simp [hv] at hvalid

/-- An instruction that aborts from `Running` raises one of its aborts. -/
theorem exec_aborted {i : Instr} {s t : State} {c : Cause} {info : AbortInfo} (hr : s.run = .running)
    (h : exec i s = .next t) (ht : t.run = .aborted c info) :
    Raises s i c info.index info.word ∧ t = s.abort c info ∧ info.pc = s.pc := by
  obtain he | ⟨c', k, w, hraise, rfl⟩ := exec_next h
  · obtain hrun | ⟨rfl, -⟩ := he.run_eq_or_halts
    · simp [hrun, hr] at ht
    · simp at ht
  · obtain ⟨rfl, rfl⟩ := RunState.aborted.inj ht
    exact ⟨hraise, rfl, rfl⟩

/-- Settles O5: the classes from `Operand.classify` on each range; an invalid operand makes some operand the first at fault, and
that one decides the abort (`exec_of_firstOperandFault`). -/
theorem operandWordsAreClassifiedByRange : Obligations.OperandWordsAreClassifiedByRange := by
  refine ⟨fun w h => ⟨_, Operand.classify_literal h, setWidth_toNat_of_le h⟩,
    fun w h h' => ⟨_, Operand.classify_register h h', ?register⟩,
    fun w h => by rw [Operand.classify_invalid h]; rfl, Operand.word_classify, fun i s hi => ?abort⟩
  case register =>
    rw [Fin.val_ofNat]
    omega
  case abort =>
    obtain ⟨c, k, w, hf⟩ := Instr.exists_fault_of_not_valid hi
    refine ⟨c, _, exec_of_firstOperandFault hf, ?_⟩
    obtain ⟨r, o, hm, ho⟩ := exists_operandFault_of_first hf
    obtain hc | ⟨hc, rfl, v, rfl⟩ := operandFault_some ho
    · exact .inl hc
    · exact .inr ⟨hc, v, Instr.head?_of_dest_mem hm⟩

/-- Settles O6: by the class of the word, which is a literal of its number, a register, or invalid. -/
theorem valueOperandsResolve : Obligations.ValueOperandsResolve := by
  refine fun s w => ⟨fun h => ⟨_, ?literal, setWidth_toNat_of_le h⟩, fun i hi => ?register, fun h => ?invalid⟩
  case literal => rw [Operand.classify_literal h, State.val?_literal]
  case register =>
    have hix : Fin.ofNat 8 (w.toNat - 32768) = i := Fin.ext (by rw [Fin.val_ofNat]; omega)
    rw [Operand.classify_register (by omega) (by omega), hix, State.val?_register]
  case invalid => rw [Operand.classify_invalid h, State.val?_invalid]

/-- Settles O12: `exec_of_firstOperandFault`; and an abort of an instruction without operands at fault is one of its other
aborts (`Raises.cause_ne_of_no_fault`). -/
theorem firstOperandAtFaultAborts : Obligations.FirstOperandAtFaultAborts :=
  ⟨fun _ _ _ _ _ h => exec_of_firstOperandFault h, fun _ _ _ _ _ hn hr h ht =>
    (exec_aborted hr h ht).1.cause_ne_of_no_fault hn⟩

end Sys2Proof.Machine
end

section
/-! The converse of `exec_next`: each outcome listed in `Effect`, and each abort listed in `Raises`, is the one the instruction
takes. The effects of single instructions (spec/40_system.md to spec/47_io.md) are read off from it. -/

namespace Sys2Proof.Machine

/-! ### Aborts -/

theorem exec_pop_of_stack_nil {s : State} (i : RegIx) (hs : s.stack = []) :
    exec (.pop (.register i)) s = s.raise .pop 0 0 .stackUnderflow := by
  simp [exec, execPop, hs]

theorem exec_pop_of_stack_cons {s : State} (i : RegIx) {w : Word} {rest : List Word} (hs : s.stack = w :: rest) :
    exec (.pop (.register i)) s = withNarrow .pop 1 w s fun v =>
      .next ((State.setReg { s with stack := rest } i v).advance .pop) := by
  simp [exec, execPop, hs]

theorem exec_mod_of_val? {s : State} {a b : Operand} {x y : Value} (i : RegIx) (ha : s.val? a = some x)
    (hb : s.val? b = some y) : exec (.mod (.register i) a b) s =
      if y = 0 then s.raise .mod 3 b.word .divideByZero else .next ((s.setReg i (Alu.mod x y)).advance .mod) := by
  rw [exec, execMod, withDst_register, withVal_some ha, withVal_some hb]

theorem exec_rmem_of_val? {s : State} {a : Operand} {ea : Value} (i : RegIx) (ha : s.val? a = some ea) :
    exec (.rmem (.register i) a) s = withNarrow .rmem 2 (Memory.readWord s.mem ea.toNat) s fun v =>
      .next ((s.setReg i v).advance .rmem) := by
  rw [exec, execRmem, withDst_register, withVal_some ha]

theorem exec_in_of_exhausted {s : State} (i : RegIx) (hi : s.input = []) (he : s.inputEnd = .exhausted) :
    exec (.in_ (.register i)) s = s.raise .in_ 0 0 .ioExhausted := by
  simp [exec, execIn, State.pullByte, hi, he]

/-- Without an operand at fault every abort that `Raises` lists is the one the instruction takes. (With one, the first at fault
decides: `exec_of_firstOperandFault`.) -/
theorem Raises.exec {s : State} {i : Instr} {c : Cause} {k : Fin 4} {w : Word} (h : Raises s i c k w)
    (hn : firstOperandFault 1 i.operands = none) : exec i s = s.raise i.opcode k w c := by
  obtain ⟨hoperand, hdestination⟩ := h.cause_ne_of_no_fault hn
  cases h with
  | operand => exact absurd rfl hoperand
  | destination => exact absurd rfl hdestination
  | underflow hs => exact exec_pop_of_stack_nil _ hs
  | @divide i a b hb =>
    have hva : operandFault .value a = none := operandFault_of_first_none hn (by simp [Instr.operands])
    obtain ⟨x, hx⟩ := s.exists_val?_of_valid (Operand.valid_of_no_fault hva)
    rw [exec_mod_of_val? _ hx hb, if_pos rfl]
    rfl
  | ended hi he => exact exec_in_of_exhausted _ hi he
  | widePop hs hw => rw [exec_pop_of_stack_cons _ hs, withNarrow_of_gt hw]; rfl
  | wideRead ha hw => rw [exec_rmem_of_val? _ ha, withNarrow_of_gt hw]; rfl

/-! ### Ordinary outcomes -/

theorem exec_ret_of_stack_cons {s : State} {w : Word} {rest : List Word} (hs : s.stack = w :: rest) :
    exec .ret s = .next (State.setPc { s with stack := rest } w) := by
  simp [exec, execRet, hs]

theorem exec_in_of_byte {s s' : State} {b : Byte} (i : RegIx) (hp : s.pullByte = .byte b s') :
    exec (.in_ (.register i)) s = .next ((s'.setReg i (byteValue b)).advance .in_) := by
  simp [exec, execIn, hp]

/-- Every outcome that `Effect` lists is the one the instruction takes. -/
theorem Effect.exec {s t : State} {i : Instr} (h : Effect s i t) : exec i s = .next t := by
  cases h with
  | halt | noop => rfl
  | set ha | not ha => exact unary_some ha
  | eq ha hb | gt ha hb | add ha hb | mult ha hb | and ha hb | or ha hb => exact binary_some ha hb
  | jt ha hb | jf ha hb => exact condJump_some ha hb
  | jmp ha => exact exec_jmp_of_val? ha
  | out ha => exact withVal_some ha
  | push ha hr => exact exec_push_of_val? ha hr
  | call ha hr => exact exec_call_of_val? ha hr
  | wmem ha hb => exact (withVal_some ha).trans (withVal_some hb)
  | mod ha hb hy => rw [exec_mod_of_val? _ ha hb, if_neg hy]
  | rmem ha hw => rw [exec_rmem_of_val? _ ha, withNarrow_of_le hw]
  | pop hs hw => rw [exec_pop_of_stack_cons _ hs, withNarrow_of_le hw]
  | retHalt hs => exact exec_ret_of_stack_nil hs
  | ret hs => exact exec_ret_of_stack_cons hs
  | inListed hi => exact exec_in_of_byte _ (by rw [State.pullByte, hi])
  | inEndless hi he => exact exec_in_of_byte _ (by simp [State.pullByte, hi, he])

/-! ### The effects of single instructions -/

/-- R90, in numbers. -/
theorem Alu.eq_eq_ite (x y : Value) : Alu.eq x y = if x.toNat = y.toNat then 1 else 0 := by
  simp [Alu.eq, truth]

/-- R91, in numbers. -/
theorem Alu.gt_eq_ite (x y : Value) : Alu.gt x y = if y.toNat < x.toNat then 1 else 0 := by
  simp [Alu.gt, truth]

/-- R102: by a divisor that is not 0, the unit computes the remainder. -/
theorem Alu.mod_toNat (x y : Value) : (Alu.mod x y).toNat = x.toNat % y.toNat := by
  have hx : x.toNat < 32768 := x.isLt
  have hle := Nat.mod_le x.toNat y.toNat
  rw [Alu.mod, BitVec.toNat_ofNat]
  exact Nat.mod_eq_of_lt (by omega)

/-- R12: the word of a value is at most 32767. -/
theorem valueWord_le (v : Value) : (valueWord v).toNat ≤ 32767 := by
  rw [valueWord_toNat]
  exact Nat.le_of_lt_succ v.isLt

@[simp] theorem lowByte_toNat (w : Word) : (lowByte w).toNat = w.toNat % 256 := BitVec.toNat_setWidth 8 w

/-- Settles O15: the number of `halt` by evaluation of the default numbering; its effect is its definition's. -/
theorem haltStopsTheMachine : Obligations.HaltStopsTheMachine :=
  ⟨rfl, fun _ => Effect.halt.exec⟩

/-- Settles O19: an empty stack and a wide top word abort (`Raises.exec`), a narrow one goes to the register (`Effect.exec`). -/
theorem popMovesTheTopToARegister : Obligations.PopMovesTheTopToARegister := by
  refine fun s i => ⟨?encoding, fun hs => ?underflow, fun w rest hs hw => ?wide,
    fun w rest hs hw => ⟨_, setWidth_toNat_of_le hw, ?moved⟩⟩
  case encoding => rfl
  case underflow => exact (Raises.underflow hs).exec rfl
  case wide => exact (Raises.widePop hs hw).exec rfl
  case moved => exact (Effect.pop hs hw).exec

/-- Settles O20: the opcode words by evaluation of the default numbering; the values written are those of the unit
(`Alu.eq_eq_ite`, `Alu.gt_eq_ite`). -/
theorem comparisonsWriteOneOrZero : Obligations.ComparisonsWriteOneOrZero := by
  refine fun s i a b x y ha hb => ⟨?eqEncoding, ?gtEncoding, ?eq, ?gt⟩
  case eqEncoding => rfl
  case gtEncoding => rfl
  case eq => rw [(Effect.eq ha hb).exec, Alu.eq_eq_ite]; rfl
  case gt => rw [(Effect.gt ha hb).exec, Alu.gt_eq_ite]; rfl

/-- Settles O24: a divisor of 0 aborts; another leaves the remainder, with the quotient of the natural numbers. -/
theorem modIsTheRemainderOrAborts : Obligations.ModIsTheRemainderOrAborts := by
  refine fun s i a b x y ha hb => ⟨?encoding, fun hy => ?zero,
    fun hy => ⟨Alu.mod x y, x.toNat / y.toNat, ?bound, ?division, ?effect⟩⟩
  case encoding => rfl
  case zero =>
    have hy0 : y = 0 := BitVec.eq_of_toNat_eq hy
    rw [exec_mod_of_val? i ha hb, if_pos hy0, State.raise_eq]
    rfl
  case bound => rw [Alu.mod_toNat]; exact Nat.mod_lt _ (Nat.pos_of_ne_zero hy)
  case division => rw [Alu.mod_toNat, Nat.div_add_mod']
  case effect => exact (Effect.mod ha hb fun hy0 => hy (by rw [hy0]; rfl)).exec

/-- Settles O27: a word above 32767 at the address aborts, another goes to the register. -/
theorem rmemReadsAWordOrAborts : Obligations.RmemReadsAWordOrAborts := by
  rintro s i a ea w ha rfl
  refine ⟨?encoding, fun hw => ?wide, fun hw => ⟨_, setWidth_toNat_of_le hw, ?effect⟩⟩
  case encoding => rfl
  case wide => rw [exec_rmem_of_val? i ha, withNarrow_of_gt hw, State.raise_eq]; rfl
  case effect => exact (Effect.rmem ha hw).exec

/-- Settles O28: the memory is that of one word write, which reads back and leaves the bytes of other words alone. -/
theorem wmemStoresOneWord : Obligations.WmemStoresOneWord := by
  refine fun s a b ea v ha hb => ⟨?encoding, Memory.writeWord s.mem ea.toNat (valueWord v), ?effect, ?stored,
    fun n h0 h1 => Memory.readByte_writeWord_ne _ _ _ _ h0 h1⟩
  case encoding => rfl
  case effect => exact (Effect.wmem ha hb).exec
  case stored => rw [Memory.readWord_writeWord_same, valueWord_toNat]

/-- Settles O58: the bound reached leaves no room, and neither instruction has done anything yet. -/
theorem finiteStackRefusesAPushBeyondIt : Obligations.FiniteStackRefusesAPushBeyondIt := by
  intro s a x m ha hm hle
  have hfull : s.full = true := State.full_iff.2 ⟨m, hm, hle⟩
  exact ⟨(withVal_some ha).trans (withRoom_of_full hfull), (withVal_some ha).trans (withRoom_of_full hfull)⟩

/-- Settles O30: on an empty stack `ret` halts, else it takes the top word into `pc`. -/
theorem retPopsTheAddressOrHalts : Obligations.RetPopsTheAddressOrHalts :=
  ⟨rfl, fun _ hs => (Effect.retHalt hs).exec, fun _ _ _ hs => (Effect.ret hs).exec⟩

/-- Settles O31: the byte is the low one of the value's word. -/
theorem outEmitsTheLowByte : Obligations.OutEmitsTheLowByte := by
  refine fun s a x ha => ⟨?encoding, lowByte (valueWord x), ?byte, (Effect.out ha).exec⟩
  case encoding => rfl
  case byte => rw [lowByte_toNat, valueWord_toNat]

/-- Settles O32: the source's byte, listed or endless, as a value. -/
theorem inReadsOneByte : Obligations.InReadsOneByte := by
  refine fun s i => ⟨?encoding, fun b rest hi => ⟨byteValue b, byteValue_toNat b, (Effect.inListed hi).exec⟩,
    fun hi he => ⟨_, byteValue_toNat _, (Effect.inEndless hi he).exec⟩⟩
  case encoding => rfl

/-- Settles O33: an ended source aborts. -/
theorem inOnAnEndedSourceAborts : Obligations.InOnAnEndedSourceAborts :=
  fun _ i hi he => ⟨rfl, exec_in_of_exhausted i hi he⟩

end Sys2Proof.Machine
end

section
/-! Aborts (spec/60_exceptions.md R140 to R151): what a step that aborts leaves and reports, and which instruction raises which
cause. -/

namespace Sys2Proof.Machine

/-- A step that aborts changes the run state alone and reports the address it fetched from; what it raises is an abort of the
fetched instruction or of its fetch. -/
theorem step_aborted {s t : State} {c : Cause} {info : AbortInfo} (h : step s = .next t) (ht : t.run = .aborted c info) :
    t = s.abort c info ∧ info.pc = s.pc ∧
    ((∃ i, s.fetch = .ok i ∧ Raises s i c info.index info.word) ∨
     ∃ e, decode s.params.opnum s.fetchWindow = .error e ∧ s.fetchAbort e = (c, info)) := by
  obtain ⟨hr, ⟨i, hf, hx⟩ | ⟨e, hd, -, rfl⟩⟩ := step_next h
  · obtain ⟨hraise, rfl, hpc⟩ := exec_aborted hr hx ht
    exact ⟨rfl, hpc, .inl ⟨i, hf, hraise⟩⟩
  · obtain ⟨rfl, rfl⟩ := RunState.aborted.inj ht
    exact ⟨rfl, s.fetchAbort_pc e, .inr ⟨e, hd, rfl⟩⟩

/-- Settles O38: by `step_aborted`; and an aborted machine takes no step. -/
theorem abortChangesOnlyTheRunState : Obligations.AbortChangesOnlyTheRunState := by
  intro s t c info h ht
  obtain ⟨rfl, hpc, -⟩ := step_aborted h ht
  exact ⟨rfl, hpc, fun u hu => by simpa using (step_next hu).1⟩

/-! ### The condition of each cause -/

/-- The table of R140: what a report says of the state before, cause by cause (R141 to R148). -/
def Cause.Condition (s : State) (info : AbortInfo) : Cause → Prop
  | .stackUnderflow => s.stack = [] ∧ ∃ d, s.fetch = .ok (.pop d)
  | .divideByZero => ∃ d a b, s.fetch = .ok (.mod d a b) ∧ s.val? b = some 0
  | .ioExhausted => s.input = [] ∧ s.inputEnd = .exhausted ∧ ∃ d, s.fetch = .ok (.in_ d)
  | .valueRange => 32767 < info.word.toNat ∧
      ((∃ d, s.fetch = .ok (.pop d) ∧ s.stack.head? = some info.word) ∨
       ∃ d a ea, s.fetch = .ok (.rmem d a) ∧ s.val? a = some ea ∧ Memory.readWord s.mem ea.toNat = info.word)
  | .destination => ∃ i v, s.fetch = .ok i ∧ i.operands.head? = some (.dest, .literal v)
  | .operand => ∃ i, s.fetch = .ok i ∧ ∃ p ∈ i.operands, p.2.valid = false
  | .addressRange => info.word.toNat = s.pc.toNat + info.index.val ∧ 32767 < info.word.toNat ∧
      (info.index.val = 0 ∧ info.opcode = 0 ∨ s.pc.toNat ≤ 32767 ∧ info.opcode = Memory.readWord s.mem s.pc.toNat ∧
        ∃ op, s.params.opnum.ofWord info.opcode = some op ∧ 1 ≤ info.index.val ∧ info.index.val ≤ op.operandCount) ∧
      ∀ i, s.fetch ≠ .ok i
  | .invalidOpcode => 21 < info.word.toNat ∧ Memory.readWord s.mem s.pc.toNat = info.word

/-- The aborts of an instruction meet the conditions of their causes. -/
theorem Raises.condition {s : State} {i : Instr} {c : Cause} {info : AbortInfo} (hf : s.fetch = .ok i)
    (h : Raises s i c info.index info.word) : c.Condition s info := by
  generalize hk : info.index = k at h
  generalize hw : info.word = w at h
  cases h with
  | operand hm hv => exact ⟨i, hf, _, hm, hv⟩
  | destination hh => exact ⟨i, _, hf, hh⟩
  | underflow hs => exact ⟨hs, _, hf⟩
  | divide hb => exact ⟨_, _, _, hf, hb⟩
  | ended hi he => exact ⟨hi, he, _, hf⟩
  | widePop hs hwide => exact ⟨hw ▸ hwide, .inl ⟨_, hf, by rw [hs, hw]; rfl⟩⟩
  | wideRead ha hwide => exact ⟨hw ▸ hwide, .inr ⟨_, _, _, hf, ha, hw.symm⟩⟩

/-- Why a list of words does not decode, rejection by rejection. -/
theorem decode_error {n : OpNum} {ws : List Word} {e : DecodeError} (h : decode n ws = .error e) :
    (ws = [] ∧ e = .noOpcode) ∨
    (∃ w rest, ws = w :: rest ∧ 21 < w.toNat ∧ e = .invalidOpcode w) ∨
    ∃ w rest op, ws = w :: rest ∧ n.ofWord w = some op ∧ rest.length < op.operandCount ∧
      e = .missingOperand op (Fin.ofNat 4 (rest.length + 1)) := by
  cases ws with
  | nil => exact .inl ⟨rfl, (Except.error.inj h).symm⟩
  | cons w rest =>
    cases ho : n.ofWord w with
    | none =>
      have hw := OpNum.ofWord_none_iff.1 ho
      rw [decode_invalidOpcode rest hw] at h
      exact .inr (.inl ⟨w, rest, rfl, hw, (Except.error.inj h).symm⟩)
    | some op =>
      by_cases hl : rest.length < op.operandCount
      · rw [decode_missingOperand ho hl] at h
        exact .inr (.inr ⟨w, rest, op, rfl, ho, hl, (Except.error.inj h).symm⟩)
      · rw [decode_of_ofWord ho (Nat.not_lt.1 hl)] at h
        cases h

/-- A window that begins with a word begins at `pc`, inside memory; and when it has fewer than four words, memory ends after
the last of them. -/
theorem State.fetchWindow_cons_inv {s : State} {w : Word} {rest : List Word} (h : s.fetchWindow = w :: rest) :
    s.pc.toNat ≤ 32767 ∧ Memory.readWord s.mem s.pc.toNat = w ∧
      (rest.length < 3 → s.pc.toNat + (rest.length + 1) = 32768) := by
  have hl := s.fetchWindow_length
  rw [h, List.length_cons] at hl
  obtain ⟨ws, hws, -⟩ := s.fetchWindow_cons (by omega)
  exact ⟨by omega, (List.cons.inj (hws.symm.trans h)).1, fun _ => by omega⟩

/-- A failed fetch meets the condition of the cause it raises. -/
theorem State.fetchAbort_condition {s : State} {e : DecodeError} {c : Cause} {info : AbortInfo}
    (hn : s.params.opnum.wf = true) (hd : decode s.params.opnum s.fetchWindow = .error e)
    (hc : s.fetchAbort e = (c, info)) : c.Condition s info := by
  have hno : ∀ i, s.fetch ≠ .ok i := fun i hi => by simp [State.fetch_of_decode_error hd] at hi
  obtain ⟨hw, rfl⟩ | ⟨w, rest, hw, hgt, rfl⟩ | ⟨w, rest, op, hw, ho, hl, rfl⟩ := decode_error hd
  · obtain ⟨rfl, rfl⟩ := Prod.mk.inj hc
    have hlen := s.fetchWindow_length
    rw [hw, List.length_nil] at hlen
    exact ⟨rfl, by simp only; omega, .inl ⟨rfl, rfl⟩, hno⟩
  · obtain ⟨rfl, rfl⟩ := Prod.mk.inj hc
    obtain ⟨-, hread, -⟩ := State.fetchWindow_cons_inv hw
    exact ⟨hgt, hread⟩
  · obtain ⟨hpc, hread, hend⟩ := State.fetchWindow_cons_inv hw
    have hcount := op.operandCount_le
    have hk : (Fin.ofNat 4 (rest.length + 1)).val = rest.length + 1 := by rw [Fin.val_ofNat]; omega
    generalize Fin.ofNat 4 (rest.length + 1) = k at hc hk
    obtain ⟨rfl, rfl⟩ := Prod.mk.inj hc
    have hword : (s.pc + BitVec.ofNat 16 k.val).toNat = s.pc.toNat + k.val := by
      rw [BitVec.toNat_add, BitVec.toNat_ofNat]
      omega
    have hnum : s.params.opnum.num op = w := OpNum.num_of_ofWord hn ho
    refine ⟨hword, by simp only [hword]; omega, .inr ⟨hpc, hnum.trans hread.symm, op, OpNum.ofWord_num hn op, ?_, ?_⟩, hno⟩
    · simp only [hk]; omega
    · simp only [hk]; omega

theorem step_aborted_condition {s t : State} {c : Cause} {info : AbortInfo} (hn : s.params.opnum.wf = true)
    (h : step s = .next t) (ht : t.run = .aborted c info) : c.Condition s info := by
  obtain ⟨-, -, ⟨i, hf, hraise⟩ | ⟨e, hd, hc⟩⟩ := step_aborted h ht
  · exact hraise.condition hf
  · exact State.fetchAbort_condition hn hd hc

/-- Settles O40: the clauses are the rows of `Cause.Condition`. -/
theorem eachAbortHasItsOwnInstruction : Obligations.EachAbortHasItsOwnInstruction := by
  intro s t c info hn h ht
  have hcond := step_aborted_condition hn h ht
  refine ⟨?_, ?_, ?_, ?_, ?_, ?_, ?_, ?_⟩
  all_goals
    rintro rfl
    exact hcond

end Sys2Proof.Machine
end

section
/-! Progress and the input source (spec/70_reset_and_hazards.md R180, spec/47_io.md R121 to R124): where a running machine has
no next state, and what the source's moves make of a wait. -/

namespace Sys2Proof.Machine

/-! ### The source -/

theorem State.sourceSilent_iff {s : State} : s.sourceSilent = true ↔ s.input = [] ∧ s.inputEnd = .pending := by
  simp [State.sourceSilent]

/-- R124: an `in` whose source has not answered waits. -/
theorem exec_in_of_silent {s : State} (i : RegIx) (hs : s.sourceSilent = true) :
    exec (.in_ (.register i)) s = .fault .waiting := by
  obtain ⟨hi, he⟩ := State.sourceSilent_iff.1 hs
  simp [exec, execIn, State.pullByte, hi, he]

/-- A byte for a silent source is the next one. -/
theorem State.deliver_of_silent {s : State} (hs : s.sourceSilent = true) (b : Byte) :
    s.deliver b = { s with input := [b] } := by
  obtain ⟨hi, he⟩ := State.sourceSilent_iff.1 hs
  simp [State.deliver, hi, he]

theorem State.closeInput_of_silent {s : State} (hs : s.sourceSilent = true) :
    s.closeInput = { s with inputEnd := .exhausted } := by
  simp [State.closeInput, (State.sourceSilent_iff.1 hs).2]

theorem State.supply_of_endless {s : State} (source : Nat → Byte) (hi : s.input = []) (he : s.inputEnd = .endless) :
    s.supply source = { s with input := [source s.inputPos] } := by
  simp [State.supply, hi, he]

theorem State.supply_of_other {s : State} (source : Nat → Byte) (h : s.input ≠ [] ∨ s.inputEnd ≠ .endless) :
    s.supply source = s := by
  simp only [State.supply, Bool.and_eq_true, List.isEmpty_iff, decide_eq_true_eq]
  rw [if_neg (by tauto)]

/-- An `in` with one byte to deliver takes it and leaves the source empty. -/
theorem step_in_of_one_byte {s : State} {i : RegIx} (hr : s.run = .running) (hf : s.fetch = .ok (.in_ (.register i)))
    (hi : s.input = []) (b : Byte) :
    step { s with input := [b] } = .next { s with
      regs := s.regs.set i.val (byteValue b), pc := s.pc + 2, inputPos := s.inputPos + 1 } := by
  have hf' : State.fetch { s with input := [b] } = .ok (.in_ (.register i)) := hf
  have heffect : Effect { s with input := [b] } (.in_ (.register i)) _ := .inListed (rest := []) rfl
  rw [step_of_fetch (s := { s with input := [b] }) hr hf', heffect.exec]
  exact congrArg Host.Outcome.next (by rw [← hi]; rfl)

/-- Settles O34: the wait is that of `exec_in_of_silent`; the source's moves change what the source answers and nothing that is
fetched. -/
theorem onlyTheSourceLiftsAWait : Obligations.OnlyTheSourceLiftsAWait := by
  intro s i hr hf hs
  refine ⟨?wait, fun b => ⟨byteValue b, byteValue_toNat b, ?byte⟩, ?closed⟩
  case wait => rw [step_of_fetch hr hf, exec_in_of_silent i hs]
  case byte =>
    rw [State.deliver_of_silent hs, step_in_of_one_byte hr hf (State.sourceSilent_iff.1 hs).1]
  case closed =>
    have hf' : State.fetch { s with inputEnd := .exhausted } = .ok (.in_ (.register i)) := hf
    rw [State.closeInput_of_silent hs, step_of_fetch (s := { s with inputEnd := .exhausted }) hr hf']
    exact exec_in_of_exhausted i (State.sourceSilent_iff.1 hs).1 rfl

/-- Settles O59: the byte supplied is the one at the position reached, and the `in` takes it (`step_in_of_one_byte`). -/
theorem endlessSourceIsReadByPosition : Obligations.EndlessSourceIsReadByPosition := by
  refine fun source s i => ⟨fun hr hf hi he => ⟨_, byteValue_toNat _, ?byte⟩, State.supply_of_other source⟩
  case byte => rw [State.supply_of_endless source hi he, step_in_of_one_byte hr hf hi]

/-! ### Progress -/

/-- An instruction that faults is an `in` that waits. -/
theorem exec_fault {i : Instr} {s : State} {f : Fault} (h : exec i s = .fault f) :
    f = .waiting ∧ s.sourceSilent = true ∧ ∃ r, i = .in_ (.register r) := by
  have hends := exec_ends i s
  rw [h] at hends
  cases hends with
  | waiting hi hs => exact ⟨rfl, hs, _, hi⟩

/-- An instruction that is refused is a push or a call without room. -/
theorem exec_refused {i : Instr} {s : State} {r : Refusal} (h : exec i s = .refused r) :
    r = .stackFull ∧ s.full = true ∧ ∃ a, i = .push a ∨ i = .call a := by
  have hends := exec_ends i s
  rw [h] at hends
  cases hends with
  | refused hi ha hr => exact ⟨rfl, hr, _, hi⟩

/-- A running machine without a next state has fetched the instruction that has none. -/
theorem exec_of_step_ne_next {s : State} {r : Result} (hr : s.run = .running) (h : step s = r) (hne : ∀ t, r ≠ .next t) :
    ∃ i, s.fetch = .ok i ∧ exec i s = r := by
  cases hd : decode s.params.opnum s.fetchWindow with
  | ok i => exact ⟨i, State.fetch_of_decode hd, step_of_fetch hr (State.fetch_of_decode hd) ▸ h⟩
  | error e => exact absurd ((step_of_decode_error hr hd).symm.trans h).symm (hne _)

/-- An instruction that neither waits nor lacks room has a next state. -/
theorem exec_has_next {i : Instr} {s : State} (hin : i.opcode = .in_ → s.sourceSilent = false)
    (hroom : i.opcode = .push ∨ i.opcode = .call → s.full = false) : ∃ t, exec i s = .next t := by
  cases hx : exec i s with
  | next t => exact ⟨t, rfl⟩
  | fault f =>
    obtain ⟨-, hs, r, rfl⟩ := exec_fault hx
    simp [hin rfl] at hs
  | refused r =>
    obtain ⟨-, hfull, a, rfl | rfl⟩ := exec_refused hx
    · simp [hroom (.inl rfl)] at hfull
    · simp [hroom (.inr rfl)] at hfull

/-- A running machine whose step is a fault waits in an `in`. -/
theorem step_fault {s : State} {f : Fault} (hr : s.run = .running) (h : step s = .fault f) :
    f = .waiting ∧ s.sourceSilent = true ∧ ∃ r, s.fetch = .ok (.in_ (.register r)) := by
  obtain ⟨i, hf, hx⟩ := exec_of_step_ne_next hr h (by simp)
  obtain ⟨hw, hs, r, rfl⟩ := exec_fault hx
  exact ⟨hw, hs, r, hf⟩

/-- Settles O14: an instruction without a next state waits (`exec_fault`) or is refused (`exec_refused`), and a step without one
executes such an instruction (`exec_of_step_ne_next`). -/
theorem runningMachineHasANextState : Obligations.RunningMachineHasANextState := by
  refine ⟨fun i s => exec_has_next, fun s hr => ⟨⟨fun h => (step_fault hr h).2, ?waits⟩,
    fun f h => (step_fault hr h).1, fun r h => ?refused⟩⟩
  case waits =>
    rintro ⟨hs, r, hf⟩
    rw [step_of_fetch hr hf, exec_in_of_silent r hs]
  case refused =>
    obtain ⟨i, hf, hx⟩ := exec_of_step_ne_next hr h (by simp)
    obtain ⟨hstack, hfull, a, hi⟩ := exec_refused hx
    refine ⟨hstack, State.full_iff.1 hfull, a, ?_⟩
    obtain rfl | rfl := hi
    · exact .inl hf
    · exact .inr hf

end Sys2Proof.Machine
end

section
/-! What single items of state an instruction can change (spec/10_state.md R17, R18, R22, R27; spec/00_scope.md R5): one lemma
per item over the ordinary outcomes, an abort changing none of them. -/

namespace Sys2Proof.Machine

/-! ### Parameters -/

theorem Effect.params_eq {s t : State} {i : Instr} (h : Effect s i t) : t.params = s.params := by
  cases h with
  | jt | jf => split <;> rfl
  | _ => rfl

/-- Settles O60: no ordinary outcome changes the parameters (`Effect.params_eq`), and no abort. -/
theorem noStepChangesTheParameters : Obligations.NoStepChangesTheParameters := by
  intro s t h
  obtain ⟨-, ⟨i, -, hx⟩ | ⟨e, -, -, rfl⟩⟩ := step_next h
  · obtain he | ⟨c, k, w, -, rfl⟩ := exec_next hx
    · exact he.params_eq
    · rfl
  · rfl

/-! ### Memory -/

/-- Memory is kept, or `wmem` has written one value to it. -/
theorem Effect.mem_eq_or_write {s t : State} {i : Instr} (h : Effect s i t) :
    t.mem = s.mem ∨ i.opcode = .wmem ∧ ∃ ea v : Value, t.mem = Memory.writeWord s.mem ea.toNat (valueWord v) := by
  cases h with
  | wmem => exact .inr ⟨rfl, _, _, rfl⟩
  | jt | jf => left; split <;> rfl
  | _ => exact .inl rfl

theorem exec_mem_eq_or_write {s t : State} {i : Instr} (h : exec i s = .next t) :
    t.mem = s.mem ∨ i.opcode = .wmem ∧ ∃ ea v : Value, t.mem = Memory.writeWord s.mem ea.toNat (valueWord v) := by
  obtain he | ⟨c, k, w, -, rfl⟩ := exec_next h
  · exact he.mem_eq_or_write
  · exact .inl rfl

/-- Settles O44: memory changes by `wmem` alone (`exec_mem_eq_or_write`), in one word, which then holds a value. -/
theorem onlyWmemWritesMemory : Obligations.OnlyWmemWritesMemory := by
  refine ⟨fun i s t h hi => (exec_mem_eq_or_write h).resolve_right fun hw => hi hw.1, fun s t a h => ?word⟩
  case word =>
    obtain ⟨-, ⟨i, -, hx⟩ | ⟨e, -, -, rfl⟩⟩ := step_next h
    · obtain hm | ⟨-, ea, v, hm⟩ := exec_mem_eq_or_write hx
      · exact .inl (by rw [hm])
      · by_cases ha : a = ea.toNat
        · right
          rw [hm, ha, Memory.readWord_writeWord_same]
          exact valueWord_le v
        · exact .inl (by rw [hm, Memory.readWord_writeWord_ne _ _ _ _ ha])
    · exact .inl rfl

/-! ### Stack -/

/-- What an ordinary outcome does to the stack: nothing, or one word more, or the top word less. -/
inductive StackChange (s : State) (i : Instr) (t : State) : Prop where
  | kept (hs : t.stack = s.stack) (hi : t.run = .running → i.opcode ∉ [Opcode.push, .call, .pop, .ret])
  | pushed {w} (hi : i.opcode = .push ∧ w.toNat ≤ 32767 ∨ i.opcode = .call ∧ w = s.pc + 2) (hroom : s.full = false)
      (hs : t.stack = w :: s.stack)
  | popped {w} (hi : i.opcode = .pop ∨ i.opcode = .ret) (hs : s.stack = w :: t.stack)

theorem Effect.stackChange {s t : State} {i : Instr} (h : Effect s i t) : StackChange s i t := by
  cases h with
  | push _ hroom => exact .pushed (.inl ⟨rfl, valueWord_le _⟩) hroom rfl
  | call _ hroom => exact .pushed (.inr ⟨rfl, rfl⟩) hroom rfl
  | pop hs => exact .popped (.inl rfl) hs
  | ret hs => exact .popped (.inr rfl) hs
  | retHalt => exact .kept rfl fun hr => by simp at hr
  | jt | jf => exact .kept (by split <;> rfl) fun _ => by simp [Instr.opcode]
  | _ => exact .kept rfl fun _ => by simp [Instr.opcode]

/-- Settles O45: by the stack's change under an ordinary outcome (`Effect.stackChange`), of which only those that halt stop the
machine, with the stack as it was; an abort keeps it. -/
theorem onlyFourInstructionsTouchTheStack : Obligations.OnlyFourInstructionsTouchTheStack := by
  intro i s t hr h
  refine ⟨fun hi => ?others, fun ht => ?stopped, fun ht hi => ?pushed, fun ht hi => ?popped⟩
  case others =>
    obtain he | ⟨c, k, w, -, rfl⟩ := exec_next h
    · cases he.stackChange with
      | kept hs => exact hs
      | pushed hi' => obtain ⟨hi', -⟩ | ⟨hi', -⟩ := hi' <;> simp [hi'] at hi
      | popped hi' => obtain hi' | hi' := hi' <;> simp [hi'] at hi
    · rfl
  case stopped =>
    obtain he | ⟨c, k, w, -, rfl⟩ := exec_next h
    · obtain hrun | ⟨rfl, -⟩ := he.run_eq_or_halts
      · exact absurd (hrun.trans hr) ht
      · rfl
    · rfl
  case pushed =>
    cases (Effect.of_exec_running h ht).stackChange with
    | kept _ hi' => exact absurd (by obtain hi | hi := hi <;> simp [hi]) (hi' ht)
    | pushed _ _ hs => exact ⟨_, hs⟩
    | popped hi' => obtain hi | hi := hi <;> simp [hi] at hi'
  case popped =>
    cases (Effect.of_exec_running h ht).stackChange with
    | kept _ hi' => exact absurd (by obtain hi | hi := hi <;> simp [hi]) (hi' ht)
    | pushed hi' => obtain hi | hi := hi <;> simp [hi] at hi'
    | popped _ hs => exact ⟨_, hs⟩

/-! ### Channels -/

theorem Effect.inputEnd_eq {s t : State} {i : Instr} (h : Effect s i t) : t.inputEnd = s.inputEnd := by
  cases h with
  | jt | jf => split <;> rfl
  | _ => rfl

/-- The output is kept, or `out` has emitted a byte. -/
theorem Effect.output_eq_or_emit {s t : State} {i : Instr} (h : Effect s i t) :
    t.output = s.output ∨ i.opcode = .out ∧ ∃ b, t.output = s.output ++ [b] := by
  cases h with
  | out => exact .inr ⟨rfl, _, rfl⟩
  | jt | jf => left; split <;> rfl
  | _ => exact .inl rfl

/-- The input is kept, or `in` has consumed its next byte; an endless source has none listed, and the tail of none is none. -/
theorem Effect.input_eq_or_consume {s t : State} {i : Instr} (h : Effect s i t) :
    t.inputPos = s.inputPos ∧ t.input = s.input ∨
      i.opcode = .in_ ∧ t.inputPos = s.inputPos + 1 ∧ t.input = s.input.tail := by
  cases h with
  | inListed hi => exact .inr ⟨rfl, rfl, by rw [hi]; rfl⟩
  | inEndless hi => exact .inr ⟨rfl, rfl, by rw [hi]; rfl⟩
  | jt | jf => left; split <;> exact ⟨rfl, rfl⟩
  | _ => exact .inl ⟨rfl, rfl⟩

/-- Settles O46: by the change of each channel under an ordinary outcome; an abort keeps them. -/
theorem onlyInAndOutTouchTheChannels : Obligations.OnlyInAndOutTouchTheChannels := by
  intro i s t h
  obtain he | ⟨c, k, w, -, rfl⟩ := exec_next h
  · have hout := he.output_eq_or_emit
    have hin := he.input_eq_or_consume
    exact ⟨fun hi => hout.resolve_right fun ho => hi ho.1, hout.imp_right And.right,
      fun hi => (hin.resolve_right fun hc => hi hc.1).symm, he.inputEnd_eq, hin.imp_right And.right⟩
  · exact ⟨fun _ => rfl, .inl rfl, fun _ => ⟨rfl, rfl⟩, rfl, .inl ⟨rfl, rfl⟩⟩

end Sys2Proof.Machine
end

section
/-! The invariant of reachable states (spec/10_state.md R16, R19; spec/60_exceptions.md R151): it holds at reset and after a
load, and every step keeps it. -/

namespace Sys2Proof.Machine

theorem State.Inv.abort {s : State} {c : Cause} {info : AbortInfo} (h : s.Inv) (hpc : info.pc = s.pc) :
    (s.abort c info).Inv where
  mem := h.mem
  pc := h.pc
  stack := h.stack
  depth := h.depth
  opnum := h.opnum
  report := fun c' info' hr => by
    obtain ⟨-, rfl⟩ := RunState.aborted.inj hr
    exact hpc

/-- The word after an instruction that lies inside memory is at most one past its end. -/
theorem advance_pc_le {s : State} {op : Opcode} (h : s.pc.toNat + op.length ≤ 32768) :
    (s.advance op).pc.toNat ≤ 32768 := by
  rw [State.advance_pc, BitVec.toNat_add, BitVec.toNat_ofNat]
  omega

/-- R16: `pc` stays in range, since an instruction lies inside memory, a value is below 32768 and so is a return address at
most 32768. -/
theorem Effect.pc_le {s t : State} {i : Instr} (h : Effect s i t) (hs : s.Inv)
    (hin : s.pc.toNat + i.opcode.length ≤ 32768) : t.pc.toNat ≤ 32768 := by
  cases h with
  | halt | retHalt => exact hs.pc
  | jmp | call => exact (valueWord_le _).trans (Nat.le_succ _)
  | jt | jf =>
    split
    · exact (valueWord_le _).trans (Nat.le_succ _)
    · exact advance_pc_le hin
  | @ret w rest hstack => exact hs.stack w (by simp [hstack])
  | _ => exact advance_pc_le hin

/-- R19: the words on the stack stay in range: what is pushed is a value or the address after a `call`. -/
theorem Effect.stack_le {s t : State} {i : Instr} (h : Effect s i t) (hs : s.Inv)
    (hin : s.pc.toNat + i.opcode.length ≤ 32768) : ∀ w ∈ t.stack, w.toNat ≤ 32768 := by
  cases h.stackChange with
  | kept hst => exact hst ▸ hs.stack
  | @pushed w hi _ hst =>
    have hw : w.toNat ≤ 32768 := by
      obtain ⟨-, hle⟩ | ⟨hop, rfl⟩ := hi
      · omega
      · rw [hop, show Opcode.call.length = 2 from rfl] at hin
        have htwo : (2 : Word).toNat = 2 := rfl
        rw [BitVec.toNat_add, htwo]
        omega
    rw [hst]
    exact List.forall_mem_cons.2 ⟨hw, hs.stack⟩
  | popped _ hst => exact fun w hm => hs.stack w (by simp [hst, hm])

/-- A finite `STACK_MAX` bounds the depth: a word is added only where there is room. -/
theorem Effect.depth_le {s t : State} {i : Instr} (h : Effect s i t) (hs : s.Inv) :
    ∀ m, t.params.stackMax = some m → t.depth ≤ m := by
  intro m hm
  rw [h.params_eq] at hm
  have hdepth := hs.depth m hm
  simp only [State.depth] at hdepth ⊢
  cases h.stackChange with
  | kept hst => rw [hst]; exact hdepth
  | pushed _ hroom hst =>
    rw [hst, List.length_cons]
    exact State.full_eq_false_iff.1 hroom m hm
  | popped _ hst =>
    rw [hst, List.length_cons] at hdepth
    omega

/-- An ordinary outcome of an instruction that lies inside memory keeps the invariant. -/
theorem Effect.inv {s t : State} {i : Instr} (h : Effect s i t) (hr : s.run = .running) (hs : s.Inv)
    (hin : s.pc.toNat + i.opcode.length ≤ 32768) : t.Inv where
  mem := by
    obtain hm | ⟨-, ea, v, hm⟩ := h.mem_eq_or_write
    · rw [hm]; exact hs.mem
    · rw [hm]; exact Memory.wf_writeWord _ hs.mem (Value.lt_memWords ea)
  pc := h.pc_le hs hin
  stack := h.stack_le hs hin
  depth := h.depth_le hs
  opnum := by rw [h.params_eq]; exact hs.opnum
  report := fun c info ht => by
    obtain hrun | ⟨rfl, -⟩ := h.run_eq_or_halts
    · simp [hrun, hr] at ht
    · simp at ht

theorem State.Inv.step {s t : State} (hs : s.Inv) (h : step s = .next t) : t.Inv := by
  obtain ⟨hr, ⟨i, hf, hx⟩ | ⟨e, -, -, rfl⟩⟩ := step_next h
  · obtain he | ⟨c, k, w, -, rfl⟩ := exec_next hx
    · exact he.inv hr hs (State.fetch_inside hf)
    · exact hs.abort rfl
  · exact hs.abort (s.fetchAbort_pc e)

/-- What the host supplies is input, of which the invariant says nothing. -/
theorem State.Inv.supply {s : State} (hs : s.Inv) (source : Nat → Byte) : (s.supply source).Inv := by
  unfold State.supply
  split
  · exact ⟨hs.mem, hs.pc, hs.stack, hs.depth, hs.opnum, hs.report⟩
  · exact hs

theorem State.Inv.runSteps {s : State} (hs : s.Inv) (source : Nat → Byte) (n : Nat) : (runSteps source n s).Inv := by
  induction n generalizing s with
  | zero => exact hs
  | succ n ih =>
    cases hx : Machine.step (s.supply source) with
    | next t => simpa only [Machine.runSteps, hx] using ih ((hs.supply source).step hx)
    | fault f => simpa only [Machine.runSteps, hx] using hs
    | refused r => simpa only [Machine.runSteps, hx] using hs

/-- The state a load leaves. -/
theorem State.boot_ok {p : Params} {before : List Host.Cell} {image input : List Byte} {ending : InputEnd} {s : State}
    (h : State.boot p before image input ending = .ok s) :
    s = { State.reset with
      params := p, mem := Memory.placeWords before 0 (wordsOfBytes image), input := input, inputEnd := ending } := by
  unfold State.boot at h
  split at h
  · cases h
  · split at h
    · cases h
    · exact (Except.ok.inj h).symm

theorem State.inv_of_boot {p : Params} {before : List Host.Cell} {image input : List Byte} {ending : InputEnd} {s : State}
    (hn : p.opnum.wf = true) (hm : Memory.wf before = true) (h : State.boot p before image input ending = .ok s) :
    s.Inv := by
  rw [State.boot_ok h]
  exact ⟨Memory.wf_placeWords hm, Nat.zero_le _, fun _ hw => absurd hw List.not_mem_nil, fun _ _ => Nat.zero_le _, hn,
    fun _ _ hr => by cases hr⟩

/-- Settles O35: an ordinary outcome keeps the invariant since what was fetched lies inside memory (`Effect.inv`), and an abort
since it changes the run state alone and reports `pc`. -/
theorem everyStepKeepsTheInvariant : Obligations.EveryStepKeepsTheInvariant :=
  fun _ _ hs h => hs.step h

/-- Settles O36: field by field; memory and stack are empty. -/
theorem resetSatisfiesTheInvariant : Obligations.ResetSatisfiesTheInvariant :=
  ⟨rfl, Nat.zero_le _, fun _ hw => absurd hw List.not_mem_nil, fun _ _ => Nat.zero_le _, opcodeTable_wf,
    fun _ _ hr => by cases hr⟩

/-- Settles O37: by induction on the number of steps, from the state the load leaves (`State.inv_of_boot`). -/
theorem everyRunOfEveryImageKeepsTheInvariant : Obligations.EveryRunOfEveryImageKeepsTheInvariant :=
  fun _ _ _ _ _ source _ n hn hm h => (State.inv_of_boot hn hm h).runSteps source n

end Sys2Proof.Machine
end

section
/-! What an instruction reads (spec/10_state.md R13, R27; spec/30_encoding.md R54): neither the registers it does not name as
values nor the output. One lemma, `Effect.mirrored`, says how an ordinary outcome looks over other registers and another output
stream; the two statements of noninterference and the register frame follow from it. -/

namespace Sys2Proof.Machine

/-! ### The destination -/

/-- The register an instruction names as its destination (R54). -/
def Instr.target (i : Instr) : Option RegIx :=
  match i.operands.head? with
  | some (.dest, .register d) => some d
  | _ => none

theorem Instr.target_eq_some_iff {i : Instr} {d : RegIx} :
    Instr.target i = some d ↔ i.operands.head? = some (.dest, .register d) := by
  unfold Instr.target
  split <;> simp_all

/-- The registers after a write of `x` to the destination, where there is one. -/
def Instr.writeTarget (i : Instr) (x : Value) (regs : Vector Value 8) : Vector Value 8 :=
  match Instr.target i with
  | some d => regs.set d.val x
  | none => regs

theorem Instr.writeTarget_of_target {i : Instr} {d : RegIx} (h : Instr.target i = some d) (x : Value)
    (regs : Vector Value 8) : Instr.writeTarget i x regs = regs.set d.val x := by
  simp [Instr.writeTarget, h]

theorem Instr.writeTarget_of_no_target {i : Instr} (h : Instr.target i = none) (x : Value) (regs : Vector Value 8) :
    Instr.writeTarget i x regs = regs := by
  simp [Instr.writeTarget, h]

/-- A write to the destination leaves every other register. -/
theorem Instr.writeTarget_get_ne {i : Instr} {r : RegIx} (h : Instr.target i ≠ some r) (x : Value)
    (regs : Vector Value 8) : (Instr.writeTarget i x regs)[r.val] = regs[r.val] := by
  cases ht : Instr.target i with
  | none => rw [Instr.writeTarget_of_no_target ht]
  | some d =>
    have hne : d.val ≠ r.val := fun e => h (by rw [ht, Fin.ext e])
    simp [Instr.writeTarget_of_target ht, hne]

/-- Registers that agree at `r` agree there after a write to the destination, wherever that is. -/
theorem Instr.writeTarget_get_congr {i : Instr} {r : RegIx} {x : Value} {regs regs' : Vector Value 8}
    (h : Instr.target i = some r ∨ regs[r.val] = regs'[r.val]) :
    (Instr.writeTarget i x regs)[r.val] = (Instr.writeTarget i x regs')[r.val] := by
  by_cases ht : Instr.target i = some r
  · simp [Instr.writeTarget_of_target ht]
  · rw [Instr.writeTarget_get_ne ht, Instr.writeTarget_get_ne ht, h.resolve_left ht]

/-! ### The same outcome over other registers and another output -/

/-- The state with other registers and another output stream. -/
def State.patch (s : State) (regs : Vector Value 8) (output : List Byte) : State :=
  { s with regs := regs, output := output }

/-- Other registers, in which the value operands of the instruction have the values they had. -/
def SameValues (s : State) (i : Instr) (regs : Vector Value 8) : Prop :=
  ∀ o, (Role.value, o) ∈ i.operands → (s.patch regs s.output).val? o = s.val? o

/-- The outcome `t` writes some `x` to the destination and emits some `e`, and does the same over all registers with the same
values and over every output. -/
inductive Mirrored (s : State) (i : Instr) (t : State) : Prop where
  | intro (x : Value) (e : List Byte) (hregs : t.regs = Instr.writeTarget i x s.regs) (hout : t.output = s.output ++ e)
      (hpatch : ∀ regs output, SameValues s i regs →
        Effect (s.patch regs output) i (t.patch (Instr.writeTarget i x regs) (output ++ e)))

/-- An outcome that emits nothing. -/
theorem Mirrored.quiet {s t : State} {i : Instr} (x : Value) (hregs : t.regs = Instr.writeTarget i x s.regs)
    (hout : t.output = s.output) (hpatch : ∀ regs output, SameValues s i regs →
      Effect (s.patch regs output) i (t.patch (Instr.writeTarget i x regs) output)) : Mirrored s i t :=
  ⟨x, [], hregs, by rw [hout, List.append_nil], fun regs output hv => by
    rw [List.append_nil]
    exact hpatch regs output hv⟩

/-- A value operand has the same value over other registers and another output. -/
theorem SameValues.val? {s : State} {i : Instr} {regs : Vector Value 8} {output : List Byte} {o : Operand} {x : Value}
    (h : SameValues s i regs) (hx : s.val? o = some x) (hm : (Role.value, o) ∈ i.operands := by simp [Instr.operands]) :
    (s.patch regs output).val? o = some x :=
  (State.val?_congr rfl o).trans ((h o hm).trans hx)

/-- An ordinary outcome reads no register but through its value operands, and never the output. Where nothing is written to a
destination any value stands for what is written. -/
theorem Effect.mirrored {s t : State} {i : Instr} (h : Effect s i t) : Mirrored s i t := by
  cases h with
  | halt => exact .quiet 0 rfl rfl fun _ _ _ => .halt
  | noop => exact .quiet 0 rfl rfl fun _ _ _ => .noop
  | set ha => exact .quiet _ rfl rfl fun _ _ hv => .set (hv.val? ha)
  | push ha hr => exact .quiet 0 rfl rfl fun _ _ hv => .push (hv.val? ha) hr
  | pop hs hw => exact .quiet _ rfl rfl fun _ _ _ => .pop hs hw
  | eq ha hb => exact .quiet _ rfl rfl fun _ _ hv => .eq (hv.val? ha) (hv.val? hb)
  | gt ha hb => exact .quiet _ rfl rfl fun _ _ hv => .gt (hv.val? ha) (hv.val? hb)
  | jmp ha => exact .quiet 0 rfl rfl fun _ _ hv => .jmp (hv.val? ha)
  | @jt a b x y ha hb =>
    have hpatch regs output (hv : SameValues s (.jt a b) regs) :=
      Effect.jt (hv.val? ha (output := output)) (hv.val? hb)
    cases hc : nonZero x <;> simp only [hc] at hpatch <;> exact .quiet 0 rfl rfl hpatch
  | @jf a b x y ha hb =>
    have hpatch regs output (hv : SameValues s (.jf a b) regs) :=
      Effect.jf (hv.val? ha (output := output)) (hv.val? hb)
    cases hc : nonZero x <;> simp only [hc] at hpatch <;> exact .quiet 0 rfl rfl hpatch
  | add ha hb => exact .quiet _ rfl rfl fun _ _ hv => .add (hv.val? ha) (hv.val? hb)
  | mult ha hb => exact .quiet _ rfl rfl fun _ _ hv => .mult (hv.val? ha) (hv.val? hb)
  | mod ha hb hy => exact .quiet _ rfl rfl fun _ _ hv => .mod (hv.val? ha) (hv.val? hb) hy
  | and ha hb => exact .quiet _ rfl rfl fun _ _ hv => .and (hv.val? ha) (hv.val? hb)
  | or ha hb => exact .quiet _ rfl rfl fun _ _ hv => .or (hv.val? ha) (hv.val? hb)
  | not ha => exact .quiet _ rfl rfl fun _ _ hv => .not (hv.val? ha)
  | rmem ha hw => exact .quiet _ rfl rfl fun _ _ hv => .rmem (hv.val? ha) hw
  | wmem ha hb => exact .quiet 0 rfl rfl fun _ _ hv => .wmem (hv.val? ha) (hv.val? hb)
  | call ha hr => exact .quiet 0 rfl rfl fun _ _ hv => .call (hv.val? ha) hr
  | retHalt hs => exact .quiet 0 rfl rfl fun _ _ _ => .retHalt hs
  | ret hs => exact .quiet 0 rfl rfl fun _ _ _ => .ret hs
  | out ha => exact ⟨0, [_], rfl, rfl, fun _ _ hv => .out (hv.val? ha)⟩
  | inListed hi => exact .quiet _ rfl rfl fun _ _ _ => .inListed hi
  | inEndless hi he => exact .quiet _ rfl rfl fun _ _ _ => .inEndless hi he

/-- The aborts of an instruction are the same over registers with the same values, and over every output. -/
theorem Raises.patch {s : State} {i : Instr} {c : Cause} {k : Fin 4} {w : Word} {regs : Vector Value 8}
    (h : Raises s i c k w) (hv : SameValues s i regs) (output : List Byte) : Raises (s.patch regs output) i c k w := by
  cases h with
  | operand hm hinv => exact .operand hm hinv
  | destination hh => exact .destination hh
  | underflow hs => exact .underflow hs
  | divide hb => exact .divide (hv.val? hb)
  | ended hi he => exact .ended hi he
  | widePop hs hw => exact .widePop hs hw
  | wideRead ha hw => exact .wideRead (s := s.patch regs output) (hv.val? ha) hw

/-- R54: a next state is an ordinary outcome, or an abort that every state with the same values takes too. -/
theorem exec_next_patch {i : Instr} {s t : State} (h : exec i s = .next t) :
    Effect s i t ∨ ∃ c info, t = s.abort c info ∧ ∀ regs output, SameValues s i regs →
      exec i (s.patch regs output) = .next ((s.patch regs output).abort c info) := by
  cases hf : firstOperandFault 1 i.operands with
  | some x =>
    obtain ⟨c, k, w⟩ := x
    rw [exec_of_firstOperandFault hf, State.raise_eq] at h
    exact .inr ⟨c, _, (Host.Outcome.next.inj h).symm, fun _ _ _ => exec_of_firstOperandFault hf⟩
  | none =>
    obtain he | ⟨c, k, w, hraise, rfl⟩ := exec_next h
    · exact .inl he
    · exact .inr ⟨c, _, rfl, fun _ output hv => (hraise.patch hv output).exec hf⟩

/-! ### The statements -/

/-- Settles O42: an ordinary outcome writes its destination alone (`Effect.mirrored`), an abort nothing. -/
theorem onlyTheDestinationRegisterChanges : Obligations.OnlyTheDestinationRegisterChanges := by
  intro i s t r h hr
  obtain he | ⟨c, k, w, -, rfl⟩ := exec_next h
  · obtain ⟨x, e, hregs, -, -⟩ := he.mirrored
    rw [State.getReg, State.getReg, hregs]
    exact Instr.writeTarget_get_ne (mt Instr.target_eq_some_iff.1 hr) x s.regs
  · rfl

/-- A register that is no value operand may hold any value. -/
theorem SameValues.of_setReg {s : State} {i : Instr} {r : RegIx} (v : Value)
    (h : (Role.value, Operand.register r) ∉ i.operands) : SameValues s i (s.setReg r v).regs := by
  intro o hm
  cases o with
  | literal | invalid => rfl
  | register q =>
    have hq : q ≠ r := fun e => h (e ▸ hm)
    exact congrArg some (State.setReg_getReg_ne s r q v hq)

/-- An ordinary outcome that stops the machine has no destination. -/
theorem Effect.run_of_target {s t : State} {i : Instr} {r : RegIx} (h : Effect s i t) (hi : Instr.target i = some r) :
    t.run = s.run := by
  obtain hrun | ⟨-, rfl | ⟨rfl, -⟩⟩ := h.run_eq_or_halts
  · exact hrun
  · cases hi
  · cases hi

/-- Settles O43: with the register changed the instruction has the same values, so it takes the mirrored outcome
(`Effect.mirrored`) or the same abort (`exec_next_patch`); at the register itself the outcomes agree if it is the destination
written, else they differ as before. -/
theorem onlyValueOperandsReadRegisters : Obligations.OnlyValueOperandsReadRegisters := by
  intro i s t r v hr h
  have hv : SameValues s i (s.setReg r v).regs := .of_setReg v hr
  have hother : ∀ q, q ≠ r → (s.setReg r v).getReg q = s.getReg q := fun q hq => State.setReg_getReg_ne s r q v hq
  obtain he | ⟨c, info, rfl, habort⟩ := exec_next_patch h
  · obtain ⟨x, e, hregs, hout, hpatch⟩ := he.mirrored
    refine ⟨_, (hpatch _ s.output hv).exec, ?rest, fun q hq => ?others, fun _ hd _ => ?written, fun hrun hd => ?kept⟩
    case rest => rw [← hout]; rfl
    case others =>
      rw [State.getReg, State.getReg, hregs]
      exact Instr.writeTarget_get_congr (.inr (hother q hq))
    case written =>
      rw [State.getReg, State.getReg, hregs]
      exact Instr.writeTarget_get_congr (.inl (Instr.target_eq_some_iff.2 hd))
    case kept =>
      have hnot : Instr.target i ≠ some r := fun hi => by
        obtain hd | hd := hd
        · exact hd (Instr.target_eq_some_iff.1 hi)
        · exact hd ((he.run_of_target hi).trans hrun)
      exact (Instr.writeTarget_get_ne hnot x _).trans (State.setReg_getReg_same s r v)
  · refine ⟨_, habort _ s.output hv, rfl, hother, fun _ _ hd => ?_, fun _ _ => State.setReg_getReg_same s r v⟩
    simp at hd

/-- Settles O47: the fetch does not see the output; an ordinary outcome emits the same after every output
(`Effect.mirrored`), and an abort emits nothing (`exec_next_patch`). -/
theorem outputIsNeverReadBack : Obligations.OutputIsNeverReadBack := by
  intro s t h
  obtain ⟨hr, ⟨i, hf, hx⟩ | ⟨e, hd, -, rfl⟩⟩ := step_next h
  · have hstep : ∀ o, step { s with output := o } = exec i (s.patch s.regs o) := fun o =>
      step_of_fetch (s := s.patch s.regs o) hr hf
    have hv : SameValues s i s.regs := fun _ _ => rfl
    obtain he | ⟨c, info, rfl, habort⟩ := exec_next_patch hx
    · obtain ⟨x, e, hregs, hout, hpatch⟩ := he.mirrored
      refine ⟨e, hout, fun o => ?_⟩
      rw [hstep, (hpatch _ o hv).exec, ← hregs]
      rfl
    · refine ⟨[], (List.append_nil _).symm, fun o => ?_⟩
      rw [hstep, habort _ o hv, List.append_nil]
      rfl
  · refine ⟨[], (List.append_nil _).symm, fun o => ?_⟩
    rw [List.append_nil]
    exact step_of_decode_error (s := { s with output := o }) hr hd

end Sys2Proof.Machine
end

section
/-! Memory, load and reset (spec/20_memory.md R33, R44 to R47; spec/10_state.md R24, R28): what a word write changes, that the
canonical form is one form per memory, and what a load makes of an image. -/

namespace Sys2Proof.Machine

/-! ### The canonical form -/

theorem lowByte_wordOfBytes (lo hi : Byte) : lowByte (wordOfBytes lo hi) = lo := by
  apply BitVec.eq_of_toNat_eq
  have := lo.isLt
  rw [lowByte_toNat, wordOfBytes_toNat]
  omega

theorem wordOfBytes_inj {lo hi lo' hi' : Byte} (h : wordOfBytes lo hi = wordOfBytes lo' hi') : lo = lo' ∧ hi = hi' := by
  have hlo : lo = lo' := by rw [← lowByte_wordOfBytes lo hi, h, lowByte_wordOfBytes]
  have hnum := congrArg BitVec.toNat h
  rw [wordOfBytes_toNat, wordOfBytes_toNat, hlo] at hnum
  exact ⟨hlo, BitVec.eq_of_toNat_eq (by omega)⟩

/-- Memories that read equal at every word read equal at every byte. -/
theorem Memory.readByte_congr {m m' : List Host.Cell}
    (h : ∀ a, a < Config.memWords → Memory.readWord m a = Memory.readWord m' a) {n : Nat} (hn : n < 2 * Config.memWords) :
    Memory.readByte m n = Memory.readByte m' n := by
  obtain ⟨hlow, hhigh⟩ := wordOfBytes_inj (h (n / 2) (by omega))
  obtain he | ho : n = 2 * (n / 2) ∨ n = 2 * (n / 2) + 1 := by omega
  · rw [he]; exact hlow
  · rw [ho]; exact hhigh

theorem Memory.readByte_cons_same (k : Nat) (b : Byte) (rest : List Host.Cell) :
    Memory.readByte ((k, b) :: rest) k = b := by
  simp [Memory.readByte]

theorem Memory.readByte_cons_ne {k n : Nat} (b : Byte) (rest : List Host.Cell) (h : n ≠ k) :
    Memory.readByte ((k, b) :: rest) n = Memory.readByte rest n := by
  simp [Memory.readByte, h.symm]

/-- The first cell of a canonical memory is at the first byte that is not the fill. -/
theorem Memory.first_le_of_readByte {k k' : Nat} {b b' : Byte} {rest rest' : List Host.Cell}
    (h : Memory.wf ((k, b) :: rest) = true) (h' : Memory.wf ((k', b') :: rest') = true)
    (hr : Memory.readByte ((k, b) :: rest) k = Memory.readByte ((k', b') :: rest') k) : k' ≤ k := by
  obtain ⟨-, hb, -, -⟩ := Memory.wf_cons.1 h
  obtain ⟨-, -, hall', -⟩ := Memory.wf_cons.1 h'
  by_contra hlt
  rw [Memory.readByte_cons_same, Memory.readByte_of_lt (List.forall_mem_cons.2
    ⟨by simp only; omega, fun e he => by have := hall' e he; omega⟩)] at hr
  exact hb hr

/-- A canonical memory with a cell does not read as the empty one. -/
theorem Memory.readByte_ne_fill {k : Nat} {b : Byte} {rest : List Host.Cell} (h : Memory.wf ((k, b) :: rest) = true) :
    Memory.readByte ((k, b) :: rest) k ≠ Memory.readByte [] k := by
  rw [Memory.readByte_cons_same]
  exact (Memory.wf_cons.1 h).2.1

/-- Canonical memories that read equal are the same data: they have the same first cell, and what follows reads equal. -/
theorem Memory.eq_of_readByte {m m' : List Host.Cell} (h : Memory.wf m = true) (h' : Memory.wf m' = true)
    (hr : ∀ n, n < 2 * Config.memWords → Memory.readByte m n = Memory.readByte m' n) : m = m' := by
  induction m generalizing m' with
  | nil =>
    cases m' with
    | nil => rfl
    | cons e' rest' => exact absurd (hr _ (Memory.wf_cons.1 h').1).symm (Memory.readByte_ne_fill h')
  | cons e rest ih =>
    obtain ⟨k, b⟩ := e
    obtain ⟨hk, -, hall, hrest⟩ := Memory.wf_cons.1 h
    cases m' with
    | nil => exact absurd (hr k hk) (Memory.readByte_ne_fill h)
    | cons e' rest' =>
      obtain ⟨k', b'⟩ := e'
      obtain ⟨hk', -, hall', hrest'⟩ := Memory.wf_cons.1 h'
      obtain rfl : k = k' := Nat.le_antisymm (Memory.first_le_of_readByte h' h (hr k' hk').symm)
        (Memory.first_le_of_readByte h h' (hr k hk))
      have hb : b = b' := by
        have := hr k hk
        rwa [Memory.readByte_cons_same, Memory.readByte_cons_same] at this
      have htail : ∀ n, n < 2 * Config.memWords → Memory.readByte rest n = Memory.readByte rest' n := by
        intro n hn
        by_cases hnk : n = k
        · rw [hnk, Memory.readByte_of_lt hall, Memory.readByte_of_lt hall']
        · have := hr n hn
          rwa [Memory.readByte_cons_ne b rest hnk, Memory.readByte_cons_ne b' rest' hnk] at this
      rw [hb, ih hrest hrest' htail]

/-- Settles O48: the laws of a word write. -/
theorem wordWriteThenWordRead : Obligations.WordWriteThenWordRead :=
  fun m a w => ⟨Memory.readWord_writeWord_same m a w, fun a' h => Memory.readWord_writeWord_ne m a a' w h⟩

/-- Settles O49: `Memory.wf_writeWord`; and memories that read equal by words do so by bytes, which determine the canonical form
(`Memory.eq_of_readByte`). -/
theorem canonicalMemoryIsUnique : Obligations.CanonicalMemoryIsUnique :=
  ⟨fun _ _ w ha h => Memory.wf_writeWord w h ha,
    fun _ _ h h' hr => Memory.eq_of_readByte h h' fun _ hn => Memory.readByte_congr hr hn⟩

/-! ### A store and the next fetch -/

/-- A word stored at or after `pc` replaces its word of the window. -/
theorem State.fetchWindow_writeWord (s : State) {a : Nat} (w : Word) (ha : s.pc.toNat ≤ a) :
    State.fetchWindow { s with mem := Memory.writeWord s.mem a w } = s.fetchWindow.set (a - s.pc.toNat) w := by
  apply List.ext_getElem?
  intro k
  rw [List.getElem?_set, State.fetchWindow_getElem?, State.fetchWindow_getElem?, State.fetchWindow_length]
  simp only
  by_cases hk : a - s.pc.toNat = k
  · subst hk
    rw [show s.pc.toNat + (a - s.pc.toNat) = a by omega, Memory.readWord_writeWord_same]
    simp
  · rw [Memory.readWord_writeWord_ne _ _ _ _ (by omega), if_neg hk]

/-- On operands with values `wmem` has its ordinary outcome alone. -/
theorem exec_wmem_next {s t : State} {a b : Operand} {ea v : Value} (ha : s.val? a = some ea) (hb : s.val? b = some v)
    (h : exec (.wmem a b) s = .next t) :
    t = State.advance { s with mem := Memory.writeWord s.mem ea.toNat (valueWord v) } .wmem :=
  Host.Outcome.next.inj (h.symm.trans (Effect.wmem ha hb).exec)

/-- Settles O50: the next window is read from the memory written (`State.fetchWindow_writeWord`). -/
theorem storeIsSeenByTheNextFetch : Obligations.StoreIsSeenByTheNextFetch := by
  intro s t a b ea v ha hb h hle _
  obtain rfl := exec_wmem_next ha hb h
  refine ⟨valueWord v, valueWord_toNat v, ?_⟩
  exact State.fetchWindow_writeWord (s.advance .wmem) (valueWord v) hle

/-! ### Load and reset -/

/-- R46: words placed from address 0 are there, and what follows them is as before. -/
theorem Memory.readWord_placeWords_zero (m : List Host.Cell) (image : List Byte) {j : Nat} (hj : j < Config.memWords) :
    Memory.readWord (Memory.placeWords m 0 (wordsOfBytes image)) j =
      if j < image.length / 2 then wordOfBytes (image.getD (2 * j) 0) (image.getD (2 * j + 1) 0)
      else Memory.readWord m j := by
  rw [Memory.readWord_placeWords _ _ _ _ hj, wordsOfBytes_length, Nat.zero_add, Nat.sub_zero]
  by_cases h : j < image.length / 2
  · rw [if_pos ⟨Nat.zero_le j, h⟩, if_pos h, wordsOfBytes_getD image j h]
  · rw [if_neg fun hj => h hj.2, if_neg h]

/-- Settles O51: the load errors by the length of the image; the memory of a load is that of its words placed from address 0
(`Memory.readWord_placeWords_zero`), and the rest is the reset state. -/
theorem bootLoadsTheImage : Obligations.BootLoadsTheImage := by
  refine ⟨fun w => ⟨Memory.wf_filled w, fun a ha => Memory.readWord_filled w ha⟩, fun a => ?unwritten,
    fun p before image input ending hm => ⟨fun hodd => ?odd, fun heven hlong => ?long, fun heven hfits => ?loaded⟩⟩
  case unwritten =>
    rw [Memory.readWord, Memory.readByte, Memory.readByte, Memory.fill, Memory.fill, if_pos (by omega), if_neg (by omega),
      wordOfBytes_low_high]
  case odd => exact if_pos hodd
  case long => exact (if_neg (by omega)).trans (if_pos hlong)
  case loaded =>
    refine ⟨_, (if_neg (by omega)).trans (if_neg (Nat.not_lt.2 hfits)), State.reset_getReg, rfl, rfl, rfl, rfl, rfl, rfl,
      rfl, rfl, Memory.wf_placeWords hm, fun i hi => ?_, fun i hi hin => ?_⟩
    · rw [Memory.readWord_placeWords_zero _ _ (Nat.lt_of_lt_of_le hi hfits), if_pos hi, wordOfBytes_toNat]
    · rw [Memory.readWord_placeWords_zero _ _ hin, if_neg (Nat.not_lt.2 hi)]

/-- Settles O52: the registers by `State.reset_getReg`, every other field as `State.reset` writes it. -/
theorem resetValues : Obligations.ResetValues :=
  ⟨State.reset_getReg, rfl, rfl, rfl, rfl, rfl, rfl, rfl⟩

/-- Settles O53: each field of the status of each run state by its definition, and the codes by evaluation. -/
theorem statusCodes : Obligations.StatusCodes :=
  ⟨rfl, rfl, fun _ _ => ⟨rfl, rfl, rfl, rfl, rfl, rfl⟩, rfl⟩

end Sys2Proof.Machine
end

section
/-! Laws across instructions (spec/44_alu.md R107, spec/41_move_stack.md R86, spec/46_call_ret.md R114, spec/45_memory.md
R111): the unit computes in the ring of 15-bit numbers and in its Boolean algebra, and what is stored is what comes back. -/

namespace Sys2Proof.Machine

/-! ### Arithmetic -/

theorem Alu.add_eq (x y : Value) : Alu.add x y = x + y :=
  BitVec.eq_of_toNat_eq ((Alu.add_toNat x y).trans (BitVec.toNat_add x y).symm)

theorem Alu.mult_eq (x y : Value) : Alu.mult x y = x * y :=
  BitVec.eq_of_toNat_eq ((Alu.mult_toNat x y).trans (BitVec.toNat_mul x y).symm)

theorem Alu.and_eq (x y : Value) : Alu.and x y = x &&& y := rfl

theorem Alu.or_eq (x y : Value) : Alu.or x y = x ||| y := rfl

/-- The two's complement of R107 is the negation of 15-bit numbers. -/
theorem ofNat_complement (k : Value) : BitVec.ofNat 15 ((32768 - k.toNat) % 32768) = -k := by
  apply BitVec.eq_of_toNat_eq
  rw [BitVec.toNat_neg, BitVec.toNat_ofNat]
  omega

/-- An instruction of format `DVV` whose function is commutative gives the same with its operands exchanged. -/
theorem binary_comm {op : Opcode} {g : Value → Value → Value} {s : State} {i : RegIx} {a b : Operand}
    (hg : ∀ x y, g x y = g y x) (ha : a.valid = true) (hb : b.valid = true) :
    binary op g (.register i) a b s = binary op g (.register i) b a s := by
  obtain ⟨x, hx⟩ := s.exists_val?_of_valid ha
  obtain ⟨y, hy⟩ := s.exists_val?_of_valid hb
  rw [binary_some hx hy, binary_some hy hx, hg]

theorem Alu.add_comm (x y : Value) : Alu.add x y = Alu.add y x := by
  rw [Alu.add_eq, Alu.add_eq, BitVec.add_comm]

theorem Alu.mult_comm (x y : Value) : Alu.mult x y = Alu.mult y x := by
  rw [Alu.mult_eq, Alu.mult_eq, BitVec.mul_comm]

theorem Alu.and_comm (x y : Value) : Alu.and x y = Alu.and y x := BitVec.and_comm x y

theorem Alu.or_comm (x y : Value) : Alu.or x y = Alu.or y x := BitVec.or_comm x y

/-- Settles O54: the unit's operations are those of 15-bit numbers (`Alu.add_eq`, `Alu.mult_eq`, `Alu.not_eq_complement`), which
obey the laws; that `mod` is not commutative by an example. -/
theorem arithmeticLaws : Obligations.ArithmeticLaws := by
  refine ⟨fun s i a b ha hb => ⟨binary_comm Alu.add_comm ha hb, binary_comm Alu.mult_comm ha hb,
      binary_comm Alu.and_comm ha hb, binary_comm Alu.or_comm ha hb⟩,
    fun x y => ⟨Alu.add_comm x y, Alu.mult_comm x y, Alu.and_comm x y, Alu.or_comm x y⟩, ⟨1, 2, by decide⟩,
    fun x y z => ⟨?addAssoc, ?multAssoc, BitVec.and_assoc x y z, BitVec.or_assoc x y z, ?distrib⟩,
    fun x k => ⟨?difference, ?restored⟩, fun x y => ⟨(Alu.add_eq x 0).trans (BitVec.add_zero x), BitVec.or_zero,
      (Alu.mult_eq x 1).trans (BitVec.mul_one x), BitVec.and_allOnes, BitVec.and_self, BitVec.or_self, ?notNot, ?deMorgan⟩⟩
  case addAssoc => simp only [Alu.add_eq, BitVec.add_assoc]
  case multAssoc => simp only [Alu.mult_eq, BitVec.mul_assoc]
  case distrib => simp only [Alu.mult_eq, Alu.add_eq, BitVec.mul_add]
  case difference =>
    rw [Alu.add_toNat, BitVec.toNat_ofNat]
    omega
  case restored => rw [ofNat_complement, Alu.add_eq, Alu.add_eq, BitVec.add_assoc, BitVec.add_left_neg, BitVec.add_zero]
  case notNot => rw [Alu.not_eq_complement, Alu.not_eq_complement, BitVec.not_not]
  case deMorgan => simp only [Alu.not_eq_complement, Alu.and_eq, Alu.or_eq, BitVec.not_and]

/-! ### What was stored comes back -/

/-- On an operand with a value `push` has its ordinary outcome or is refused. -/
theorem exec_push_next {s t : State} {a : Operand} {x : Value} (ha : s.val? a = some x) (h : exec (.push a) s = .next t) :
    t = (s.push (valueWord x)).advance .push :=
  (Host.Outcome.next.inj (withRoom_next ((withVal_some ha).symm.trans h)).2).symm

/-- Settles O55: the top of the stack is the word of the value, which is not above 32767, so `pop` takes it off again. -/
theorem pushThenPopGivesTheValue : Obligations.PushThenPopGivesTheValue := by
  intro s t i a x ha h
  obtain rfl := exec_push_next ha h
  have hpc : s.pc + 2 + 2 = s.pc + 4 := by rw [BitVec.add_assoc]; rfl
  rw [(Effect.pop (i := i) (s := (s.push (valueWord x)).advance .push) rfl (valueWord_le x)).exec, valueWord_setWidth, ← hpc]
  rfl

/-- Settles O56: a `call` that leaves the machine running has pushed `pc + 2`, and `ret` takes it from a stack that has come
back to that. -/
theorem callThenRetComesBack : Obligations.CallThenRetComesBack := by
  intro s t u a _ h ht hu
  cases Effect.of_exec_running h ht with
  | call => exact (Effect.ret (s := u) hu).exec

/-- Settles O57: the word read back is the word of the value, which is not above 32767. -/
theorem wmemThenRmemGivesTheValue : Obligations.WmemThenRmemGivesTheValue := by
  intro s t u i a b c ea v ha hb h hu hc
  obtain rfl := exec_wmem_next ha hb h
  have hread : Memory.readWord u.mem ea.toNat = valueWord v := by
    rw [hu]
    exact Memory.readWord_writeWord_same _ _ _
  rw [exec_rmem_of_val? i hc, hread, withNarrow_of_le (valueWord_le v), valueWord_setWidth]
  rfl

end Sys2Proof.Machine
end
